-- ==== Sys2Proof/Word.lean ====
section
/-! DEFINITION. The bit-vector types of the unit. -/

namespace Sys2Proof

/-- `u32` (00 R8): the seed, the running hash, the block value, the length and the result. -/
abbrev Word := BitVec 32

/-- `u8` (00 R8, 20 R50): one message byte, one lane of a command word. -/
abbrev Byte := BitVec 8

/-- A command word `CW`: exactly 36 bits (30 R70). -/
abbrev CmdWord := BitVec 36

end Sys2Proof
end

