-- ==== Sys2Proof/Machine/Arithmetic.lean ====
section
/-! DEFINITION. The arithmetic primitives, the constants and the scramble function (spec/40_arithmetic.md).
None of them reads or writes a register, sets a flag or traps (40 R96). -/

namespace Sys2Proof.Machine

/-! ### Primitives -/

/-- `mul32(a, b)`: the product modulo 2^32 (40 R90). -/
def mul32 (a b : Word) : Word := a * b

/-- `add32(a, b)`: the sum modulo 2^32 (40 R91). -/
def add32 (a b : Word) : Word := a + b

/-- `xor32(a, b)` (40 R92). -/
def xor32 (a b : Word) : Word := a ^^^ b

/-- `rotl32(x, r)` for `r ≤ 31` (40 R93), by the rule's formula. -/
def rotl32 (x : Word) (r : Nat) : Word := if r = 0 then x else (x <<< r) ||| (x >>> (32 - r))

/-- `shr32(x, s)`: the logical right shift (40 R94). -/
def shr32 (x : Word) (s : Nat) : Word := x >>> s

/-! ### Constants (40 R95) -/

/-- `C1`, the first scramble multiplier -/
def constC1 : Word := 0xcc9e2d51

/-- `C2`, the second scramble multiplier -/
def constC2 : Word := 0x1b873593

/-- `R1`, the scramble rotation -/
def constR1 : Nat := 15

/-- `R2`, the accumulator rotation -/
def constR2 : Nat := 13

/-- `M5`, the accumulator multiplier -/
def constM5 : Word := 5

/-- `N0`, the accumulator addend -/
def constN0 : Word := 0xe6546b64

/-- `F1`, the first finalization multiplier -/
def constF1 : Word := 0x85ebca6b

/-- `F2`, the second finalization multiplier -/
def constF2 : Word := 0xc2b2ae35

/-- `S1`, the first finalization shift -/
def constS1 : Nat := 16

/-- `S2`, the second finalization shift -/
def constS2 : Nat := 13

/-- `S3`, the third finalization shift -/
def constS3 : Nat := 16

/-! ### Scramble and xor-shift -/

/-- `scramble(k)` (40 R97). -/
def scramble (k : Word) : Word := mul32 (rotl32 (mul32 k constC1) constR1) constC2

/-- `x ^ (x >> s)`, the step the finalization applies three times (40 R98 (d), 44 R140). -/
def xorShift (x : Word) (s : Nat) : Word := xor32 x (shr32 x s)

end Sys2Proof.Machine
end

