-- ==== Sys2Proof/Syntax.lean ====
section
/-! DEFINITION. The commands: one constructor per row of spec/opcode_table.json (30 R73). -/

namespace Sys2Proof

/-- A decoded command, as 30 R74 returns it. -/
inductive Instr where
  /-- `INIT seed` (41 R110) -/
  | init (seed : Word)
  /-- `BLOCK b0 b1 b2 b3`, the bytes in message order (42 R121) -/
  | block (b0 b1 b2 b3 : Byte)
  /-- `TAIL [b0 [b1 [b2]]]`: "`Tail` carries a list of 0, 1, 2 or 3 bytes" (30 R74, 43 R132) -/
  | tail (bs : List Byte)
  /-- `FINAL` (44 R141) -/
  | final
deriving DecidableEq, Repr

end Sys2Proof
end

