-- ==== Sys2Proof/WellFormed.lean ====
section
/-! DEFINITION. Which terms of `Instr` are commands of the unit. -/

namespace Sys2Proof

/-- A command is well formed when some word encodes it: the only condition the type does not carry is that a
tail has at most three bytes (30 R72, R74). -/
def Instr.wf : Instr → Bool
  | .init _ => true
  | .block _ _ _ _ => true
  | .tail bs => bs.length ≤ 3
  | .final => true

end Sys2Proof
end

