-- ==== Sys2Proof/Decode.lean ====
section
/-! DEFINITION. Command words (spec/30_encoding.md): fields, byte order, decoder, encoder. -/

namespace Sys2Proof

/-! ### Fields of a command word (30 R71) -/

/-- `OP = CW[35:34]` -/
def opField (w : CmdWord) : BitVec 2 := w.extractLsb' 34 2

/-- `CNT = CW[33:32]` -/
def cntField (w : CmdWord) : BitVec 2 := w.extractLsb' 32 2

/-- `DATA = CW[31:0]` -/
def dataField (w : CmdWord) : Word := w.extractLsb' 0 32

/-- `B0 = CW[7:0]`, the lane of the lowest message offset -/
def lane0 (w : CmdWord) : Byte := w.extractLsb' 0 8

/-- `B1 = CW[15:8]` -/
def lane1 (w : CmdWord) : Byte := w.extractLsb' 8 8

/-- `B2 = CW[23:16]` -/
def lane2 (w : CmdWord) : Byte := w.extractLsb' 16 8

/-- `B3 = CW[31:24]` -/
def lane3 (w : CmdWord) : Byte := w.extractLsb' 24 8

/-- The word `{op, cnt, data}` (concatenation as in 00 R8). -/
def pack (op cnt : BitVec 2) (data : Word) : CmdWord := op ++ cnt ++ data

/-! ### Byte order (20 R54, R55) -/

/-- `le(b0, ..., b(n-1))` of 20 R54: the byte of the lowest offset is the least significant, positions at and
above the list's length are zero. The rule's domain is at most four bytes; bytes past the fourth are shifted
out (log entry 5: no word decodes to such a list). -/
def le : List Byte → Word
  | [] => 0#32
  | b :: bs => b.setWidth 32 ||| (le bs <<< 8)

/-- `tailmask(cnt)` of 30 R72. -/
def tailmask (cnt : BitVec 2) : Word :=
  match cnt.toNat with
  | 0 => 0x00000000
  | 1 => 0x000000FF
  | 2 => 0x0000FFFF
  | _ => 0x00FFFFFF

/-! ### The decoder (30 R74, R75) -/

/-- Which of the three kinds of reserved word of 30 R75 a word is. -/
inductive ReservedKind where
  /-- `OP = 00` with `CNT ≠ 0` -/
  | initWithCount
  /-- `OP = 01` with `CNT ≠ 0` -/
  | blockWithCount
  /-- `OP = 11` with `CNT ≠ 0` or `DATA ≠ 0` -/
  | finalWithOperand
deriving DecidableEq, Repr

/-- What `decode` returns: a command, or `Reserved` with its kind. -/
inductive Decoded where
  | command (i : Instr)
  | reserved (k : ReservedKind)
deriving DecidableEq, Repr

/-- `decode(w)` of 30 R74: total on 36-bit words. A word none of the four rows selects is reserved and is
rejected by its kind. -/
def decode (w : CmdWord) : Decoded :=
  match (opField w).toNat with
  | 0 => if cntField w = 0#2 then .command (.init (dataField w)) else .reserved .initWithCount
  | 1 =>
    if cntField w = 0#2 then .command (.block (lane0 w) (lane1 w) (lane2 w) (lane3 w))
    else .reserved .blockWithCount
  | 2 => .command (.tail ([lane0 w, lane1 w, lane2 w].take (cntField w).toNat))
  | _ =>
    if cntField w = 0#2 ∧ dataField w = 0#32 then .command .final else .reserved .finalWithOperand

/-! ### The encoder (30 R78) -/

/-- `encode` of 30 R78, from the field layout of 30 R71 and R73. -/
def encode : Instr → CmdWord
  | .init seed => pack 0b00#2 0b00#2 seed
  | .block b0 b1 b2 b3 => 0b01#2 ++ 0b00#2 ++ b3 ++ b2 ++ b1 ++ b0
  | .tail bs => pack 0b10#2 (BitVec.ofNat 2 bs.length) (le bs)
  | .final => pack 0b11#2 0b00#2 0#32

/-- "`w` with the ignored lanes cleared" (30 R78): in a `TAIL` word the data is masked with `tailmask(CNT)`
(30 R72); no other word has an ignored lane. -/
def clearIgnoredLanes (w : CmdWord) : CmdWord :=
  if opField w = 0b10#2 then pack (opField w) (cntField w) (dataField w &&& tailmask (cntField w)) else w

/-! ### The host's numbering of an opcode-table row -/

/-- The command word whose bits are the low `nbits` bits of `w`, when the 36-bit port can carry it. The table
gives a row 36 bits, five whole bytes; a number with a bit set above bit 35 is no command word (log entry 6). -/
def tableWord (nbits w : Nat) : Option CmdWord :=
  if w % 2 ^ nbits < 2 ^ 36 then some (BitVec.ofNat 36 (w % 2 ^ nbits)) else none

/-- The instruction the decoder reads from an opcode-table word. -/
def decodeTableWord (nbits w : Nat) : Option Instr :=
  match tableWord nbits w with
  | none => none
  | some cw =>
    match decode cw with
    | .command i => some i
    | .reserved _ => none

end Sys2Proof
end

