-- ==== Sys2Proof/Machine/Operands.lean ====
section
/-! DEFINITION. Operand assembly (30 R72) and the message space (spec/20_memory.md). The fields of a word, `le`
and `tailmask` are in Decode.lean, which the encoder needs. -/

namespace Sys2Proof.Machine

/-! ### Operands of a command -/

/-- The block value `k = le(b0, b1, b2, b3)` (30 R72, 42 R121). -/
def blockValue (b0 b1 b2 b3 : Byte) : Word := le [b0, b1, b2, b3]

/-- `tail_assemble(bs)` (43 R130). -/
def tailAssemble (bs : List Byte) : Word := le bs

/-- `zext_32(cnt)`, the number of tail bytes, as the amount `LEN` advances by (43 R132). -/
def tailCount (bs : List Byte) : Word := BitVec.ofNat 32 bs.length

/-! ### The message space `M` (20 R51): owned by the host, read-only, no state of the unit -/

/-- `data[i]`, used only at offsets below `len` (20 R57). -/
def byteAt (data : List Byte) (i : Nat) : Byte := data.getD i 0

/-- `MemRead(addr, n)`: the bytes at offsets `addr` to `addr + n - 1`, "defined only when `addr + n <= len`"
(00 R9). -/
def memRead (data : List Byte) (addr n : Nat) : Option (List Byte) :=
  if addr + n ≤ data.length then some ((List.range n).map fun j => byteAt data (addr + j)) else none

/-- `nblocks = len div 4` (20 R56, R57). -/
def nblocks (data : List Byte) : Nat := data.length / 4

/-- The block value of block `i`, at offset `4*i` (20 R56, 45 R155). -/
def messageBlock (data : List Byte) (i : Nat) : Word :=
  blockValue (byteAt data (4 * i)) (byteAt data (4 * i + 1)) (byteAt data (4 * i + 2)) (byteAt data (4 * i + 3))

/-- The `len mod 4` bytes at offset `4*nblocks` (20 R57, 45 R154). -/
def messageTail (data : List Byte) : List Byte :=
  (List.range (data.length % 4)).map fun j => byteAt data (4 * nblocks data + j)

end Sys2Proof.Machine
end

