-- ==== Sys2Proof/Machine/State.lean ====
section
/-! DEFINITION. The state of the unit (spec/10_state.md) and its value after reset. -/

namespace Sys2Proof.Machine

/-- The 3-bit register `PHASE` (10 R24): one constructor per value. Values 5, 6 and 7 are "never produced by any
rule"; the model represents them and treats them as 10 R35 and 45 R152 say (log entry 3). -/
inductive Phase where
  /-- 0: after reset, no seed loaded -/
  | idle
  /-- 1: seed loaded, zero or more blocks absorbed -/
  | absorb
  /-- 2: the tail has been absorbed -/
  | tailed
  /-- 3: `H` holds the result -/
  | done
  /-- 4: the port was misused -/
  | fault
  /-- 5: no name in the spec -/
  | unused5
  /-- 6: no name in the spec -/
  | unused6
  /-- 7: no name in the spec -/
  | unused7
deriving DecidableEq, Repr

/-- The 2-bit register `ERRCODE` (10 R27): one constructor per value. -/
inductive ErrCode where
  /-- 0: no fault -/
  | none
  /-- 1: a reserved word was accepted -/
  | reservedEncoding
  /-- 2: a command was accepted where it is not legal -/
  | outOfSequence
  /-- 3: never produced (log entry 3) -/
  | unused3
deriving DecidableEq, Repr

/-- One sample of the input pins of 10 R30. -/
structure Pins where
  /-- `rst`: synchronous reset, active high -/
  rst : Bool
  /-- `cmd_valid`: the host presents a command word -/
  cmdValid : Bool
  /-- `cmd_word` -/
  cmdWord : CmdWord
deriving DecidableEq, Repr

/-- The state: the four registers of 10 R20, and the model's own `pins`, the samples of the input pins the host
will drive, oldest first (log entry 1). -/
structure State where
  /-- `H`, the running hash; in `DONE` the result (10 R21) -/
  h : Word
  /-- `LEN`, the bytes absorbed since the last `INIT`, modulo 2^32 (10 R22) -/
  len : Word
  /-- `PHASE` (10 R24) -/
  phase : Phase
  /-- `ERRCODE` (10 R27) -/
  errcode : ErrCode
  /-- what the host drives on the input pins (the model's own field, log entry 1) -/
  pins : List Pins
deriving DecidableEq, Repr

/-- How the MODEL may stop. There is no constructor: the step function of 45 R152 is total, and the two faults of
60 R171 are next states, in the phase `FAULT` (log entry 4). -/
inductive Fault : Type where
deriving DecidableEq, Repr

/-- Why the model gives an instruction no meaning. -/
inductive Refusal : Type where
  /-- raised by `exec` for an instruction without a meaning; none is left. Safe: the model stops -/
  | notModelled (mnemonic : String)
deriving DecidableEq, Repr

/-- The state right after reset: `(H, LEN, PHASE, ERRCODE) = (0, 0, IDLE, NONE)` (10 R34), nothing presented
(DESIGN CHOICE, log entry 1). -/
def State.reset : State := { h := 0, len := 0, phase := .idle, errcode := .none, pins := [] }

end Sys2Proof.Machine
end

