-- ==== Sys2Proof/Machine/Ops.lean ====
section
/-! DEFINITION. The named operations over the registers: writes, legality, fault entry, the way out of a fault,
reset, and the sequencing test every command but INIT goes through. -/

namespace Sys2Proof.Machine

/-- What one step answers. -/
abbrev Result := Host.Outcome State Fault Refusal

/-- `o`, then `f` on its state. -/
def andThen {σ τ : Type} (o : Host.Outcome σ Fault Refusal) (f : σ → Host.Outcome τ Fault Refusal) :
    Host.Outcome τ Fault Refusal :=
  match o with
  | .next s => f s
  | .fault r => .fault r
  | .refused r => .refused r

/-! ### Register writes (`H <- v` and so on, 00 R9) -/

/-- `H <- v` -/
def State.setH (s : State) (v : Word) : State := { s with h := v }

/-- `LEN <- v` -/
def State.setLen (s : State) (v : Word) : State := { s with len := v }

/-- `PHASE <- p` -/
def State.setPhase (s : State) (p : Phase) : State := { s with phase := p }

/-- `ERRCODE <- c` -/
def State.setErrCode (s : State) (c : ErrCode) : State := { s with errcode := c }

/-- what the host drives from now on (log entry 1) -/
def State.setPins (s : State) (ps : List Pins) : State := { s with pins := ps }

/-! ### Legality (45 R150, R151) -/

/-- The phases in which every word but an `INIT` is dropped: `FAULT` (60 R177), and the values 5 to 7, which the
step treats as `FAULT` (10 R35, 45 R152). -/
def drops : Phase → Bool
  | .idle => false
  | .absorb => false
  | .tailed => false
  | .done => false
  | .fault => true
  | .unused5 => true
  | .unused6 => true
  | .unused7 => true

/-- `legal(phase, c)` (45 R151). -/
def legal (p : Phase) : Decoded → Bool
  | .command (.init _) => true
  | .command (.block _ _ _ _) => p = .absorb
  | .command (.tail _) => p = .absorb
  | .command .final => p = .absorb ∨ p = .tailed
  | .reserved _ => false

/-! ### Taking a fault, and the ways out (spec/60_exceptions.md) -/

/-- Fault entry, `raise Fault(code)` (60 R176): `PHASE <- FAULT`, `ERRCODE <- code`; `H` and `LEN` are unchanged
and nothing else is recorded (60 R172). -/
def raiseFault (code : ErrCode) (s : State) : State := (s.setPhase .fault).setErrCode code

/-- Start an operation; from `FAULT` this is the return from the fault (60 R178, 41 R110). -/
def startOperation (seed : Word) (s : State) : State :=
  (((s.setH seed).setLen 0).setPhase .absorb).setErrCode .none

/-- `reset(S) = (0, 0, IDLE, NONE)` for every `S` (70 R190). The pins are the host's. -/
def resetUnit (s : State) : State := (((s.setH 0).setLen 0).setPhase .idle).setErrCode .none

/-! ### The tests of 45 R152, in its order -/

/-- A command other than `INIT`: dropped in `FAULT` (60 R177); out of sequence, it faults (60 R171); else it has
its `effect`. -/
def sequenced (i : Instr) (effect : State → State) (s : State) : Result :=
  if drops s.phase then .next s
  else if legal s.phase (.command i) then .next (effect s)
  else .next (raiseFault .outOfSequence s)

/-- A reserved word: dropped in `FAULT`, else it faults; no sequence test is made (60 R174, 30 R75). -/
def acceptReserved (s : State) : Result :=
  if drops s.phase then .next s else .next (raiseFault .reservedEncoding s)

end Sys2Proof.Machine
end

