-- ==== Sys2Proof/Machine/Block.lean ====
section
/-! DEFINITION. The block mixer and the BLOCK command (spec/42_block.md). -/

namespace Sys2Proof.Machine

/-- `block_round(h, k)` (42 R120). -/
def blockRound (h k : Word) : Word :=
  add32 (mul32 (rotl32 (xor32 h (scramble k)) constR2) constM5) constN0

/-- The effect of a `BLOCK` that is in sequence (42 R121). `ERRCODE` is left as it was (10 R36). -/
def absorbBlock (k : Word) (s : State) : State :=
  ((s.setH (blockRound s.h k)).setLen (add32 s.len 4)).setPhase .absorb

/-- `BLOCK b0 b1 b2 b3` (42 R121). -/
def execBlock (b0 b1 b2 b3 : Byte) (s : State) : Result :=
  sequenced (.block b0 b1 b2 b3) (absorbBlock (blockValue b0 b1 b2 b3)) s

end Sys2Proof.Machine
end

