-- ==== Sys2Proof/Machine/Final.lean ====
section
/-! DEFINITION. The finalization mixer and the FINAL command (spec/44_final.md). -/

namespace Sys2Proof.Machine

/-- `fmix(h, n)` (44 R140): the length enters by XOR, once, before the first shift. -/
def fmix (h n : Word) : Word :=
  xorShift (mul32 (xorShift (mul32 (xorShift (xor32 h n) constS1) constF1) constS2) constF2) constS3

/-- The effect of a `FINAL` that is in sequence (44 R141). `LEN` and `ERRCODE` are left as they were. -/
def finalize (s : State) : State := (s.setH (fmix s.h s.len)).setPhase .done

/-- `FINAL` (44 R141). -/
def execFinal (s : State) : Result := sequenced .final finalize s

end Sys2Proof.Machine
end

