-- ==== Sys2Proof/Machine/Init.lean ====
section
/-! DEFINITION. The INIT command (spec/41_init.md). -/

namespace Sys2Proof.Machine

/-- `INIT seed` (41 R110): legal in every phase, never faults, leaves `FAULT`. -/
def execInit (seed : Word) (s : State) : Result := .next (startOperation seed s)

end Sys2Proof.Machine
end

