-- ==== Sys2Proof/Machine/Tail.lean ====
section
/-! DEFINITION. The tail handler and the TAIL command (spec/43_tail.md). -/

namespace Sys2Proof.Machine

/-- `tail_round(h, k1)` (43 R131): no rotation of `h`, no multiply-add. -/
def tailRound (h k1 : Word) : Word := xor32 h (scramble k1)

/-- The effect of a `TAIL` that is in sequence (43 R132). `ERRCODE` is left as it was (10 R36). -/
def absorbTail (bs : List Byte) (s : State) : State :=
  ((s.setH (tailRound s.h (tailAssemble bs))).setLen (add32 s.len (tailCount bs))).setPhase .tailed

/-- `TAIL [b0 [b1 [b2]]]` (43 R132). -/
def execTail (bs : List Byte) (s : State) : Result := sequenced (.tail bs) (absorbTail bs) s

end Sys2Proof.Machine
end

