-- ==== Sys2Proof/Machine/Dispatch.lean ====
section
/-! DEFINITION. One arm per command. -/

namespace Sys2Proof.Machine

/-- The effect of a decoded command (45 R152). -/
def exec (i : Instr) (s : State) : Host.Outcome State Fault Refusal :=
  match i with
  | .init seed => Sys2Proof.Machine.execInit seed s
  | .block b0 b1 b2 b3 => Sys2Proof.Machine.execBlock b0 b1 b2 b3 s
  | .tail bs => Sys2Proof.Machine.execTail bs s
  | .final => Sys2Proof.Machine.execFinal s

end Sys2Proof.Machine
end

