-- ==== Sys2Proof/Machine/Accept.lean ====
section
/-! DEFINITION. What the unit does with one accepted word, and with one sample of its input pins. -/

namespace Sys2Proof.Machine

/-- `step(S, w)` of 45 R152: the state after the unit accepts the word `w`. -/
def accept (w : CmdWord) (s : State) : Result :=
  match decode w with
  | .command i => exec i s
  | .reserved _ => acceptReserved s

/-- One sample of the pins with the unit ready: reset wins over a presented word, which is then not taken (70 R190,
60 R174); a presented word is accepted (70 R194); with nothing presented the unit holds its state (70 R200). -/
def samplePins (p : Pins) (s : State) : Result :=
  if p.rst then .next (resetUnit s)
  else if p.cmdValid then accept p.cmdWord s
  else .next s

/-- The pins with the word `w` presented. -/
def present (w : CmdWord) : Pins := { rst := false, cmdValid := true, cmdWord := w }

/-- The pins with nothing presented. -/
def quiet : Pins := { rst := false, cmdValid := false, cmdWord := 0 }

/-- The pins that present an opcode-table word; nothing where the 36-bit port cannot carry it (log entry 6). -/
def presentTableWord (nbits w : Nat) : Pins :=
  match tableWord nbits w with
  | some cw => present cw
  | none => quiet

end Sys2Proof.Machine
end

