-- ==== Sys2Proof/Machine/Step.lean ====
section
/-! DEFINITION. The step of the machine: the unit reads the next sample of its input pins. -/

namespace Sys2Proof.Machine

/-- One step (00 R10, 45 R152): the oldest sample of the pins is read and acted on. When the host drives nothing more, the
unit waits, holding its state (70 R200; log entry 1). -/
def step (s : State) : Host.Outcome State Fault Refusal :=
  match s.pins with
  | [] => .next s
  | p :: ps => samplePins p (s.setPins ps)

/-- `s` with the opcode-table word `w` as the next word the host presents (log entry 1). -/
def State.withFetchWord (s : State) (nbits w : Nat) : State :=
  s.setPins (presentTableWord nbits w :: s.pins)

end Sys2Proof.Machine
end

