-- ==== Sys2Proof/Machine/Flags.lean ====
section
/-! DEFINITION. What the host can observe (10 R26): the unit has no flags; its only status is the phase and the
fault code on `status`, and the validity of the result. All are functions of the state (10 R28, R29). -/

namespace Sys2Proof.Machine

/-- The 3-bit value of `PHASE` (10 R24). -/
def phaseBits : Phase → BitVec 3
  | .idle => 0
  | .absorb => 1
  | .tailed => 2
  | .done => 3
  | .fault => 4
  | .unused5 => 5
  | .unused6 => 6
  | .unused7 => 7

/-- The 2-bit value of `ERRCODE` (10 R27). -/
def errBits : ErrCode → BitVec 2
  | .none => 0
  | .reservedEncoding => 1
  | .outOfSequence => 2
  | .unused3 => 3

/-- The port `status = {ERRCODE, PHASE}` (10 R28). -/
def statusPort (s : State) : BitVec 5 := errBits s.errcode ++ phaseBits s.phase

/-- The port `res_valid`: 1 exactly when `PHASE = DONE` (10 R29). -/
def resValid (s : State) : Bool := s.phase = .done

/-- The port `res_data`: `H` in `DONE`, 0 in every other phase (10 R29). -/
def resData (s : State) : Word := if s.phase = .done then s.h else 0

/-- The port `cmd_ready` between two steps: 0 exactly while `rst = 1` (70 R190, R195; log entry 2). -/
def cmdReady (p : Pins) : Bool := !p.rst

/-- `result(S)` (45 R153): what the host can read on the result port. -/
def result (s : State) : Option Word := if s.phase = .done then some s.h else none

end Sys2Proof.Machine
end

