-- ==== Sys2Proof/Machine/Driver.lean ====
section
/-! DEFINITION. The host's side: the reads of the message, the command sequence that hashes it, and runs
(20 R57, 45 R153, R154, R156, 70 R203). -/

namespace Sys2Proof.Machine

/-- The host's reads of a message of `len` bytes, as pairs (offset, count), in order (20 R57): no read for an
empty tail. -/
def hostReads (len : Nat) : List (Nat × Nat) :=
  (List.range (len / 4)).map (fun i => (4 * i, 4)) ++
    if len % 4 = 0 then [] else [(4 * (len / 4), len % 4)]

/-- The `BLOCK` that delivers block `i` (45 R154). -/
def blockCommand (data : List Byte) (i : Nat) : Instr :=
  .block (byteAt data (4 * i)) (byteAt data (4 * i + 1)) (byteAt data (4 * i + 2)) (byteAt data (4 * i + 3))

/-- The `BLOCK` commands of a message, in message order. -/
def blockCommands (data : List Byte) : List Instr := (List.range (nblocks data)).map (blockCommand data)

/-- The commands of `drive(seed, data)` (45 R154): the `TAIL` is present also when it carries no bytes. -/
def driveCommands (seed : Word) (data : List Byte) : List Instr :=
  [.init seed] ++ blockCommands data ++ [.tail (messageTail data), .final]

/-- The commands of `drive_short(seed, data)` (45 R154): the `TAIL` is left out when `len mod 4 = 0`. -/
def driveShortCommands (seed : Word) (data : List Byte) : List Instr :=
  if data.length % 4 = 0 then [.init seed] ++ blockCommands data ++ [.final] else driveCommands seed data

/-- `drive(seed, data)` (45 R154). -/
def drive (seed : Word) (data : List Byte) : List CmdWord := (driveCommands seed data).map encode

/-- `drive_short(seed, data)` (45 R154). -/
def driveShort (seed : Word) (data : List Byte) : List CmdWord := (driveShortCommands seed data).map encode

/-- What the host sends for a caller that may give no seed: the seed is then 0 (45 R156 (b), 30 R79). -/
def driveCall (seed : Option Word) (data : List Byte) : List CmdWord := drive (seed.getD 0) data

/-- `run(S, ws)`: `accept` folded over a list of words from the left (45 R153). -/
def runWords : List CmdWord → State → Result
  | [], s => .next s
  | w :: ws, s => andThen (accept w s) (runWords ws)

/-- A run over words and resets (70 R203), as samples of the pins. -/
def runPins : List Pins → State → Result
  | [], s => .next s
  | p :: ps, s => andThen (samplePins p s) (runPins ps)

/-- `s` with the words `ws` as the next words the host presents. -/
def State.presenting (s : State) (ws : List CmdWord) : State := s.setPins (ws.map present ++ s.pins)

end Sys2Proof.Machine
end

