-- ==== Sys2Proof/Machine/Asm.lean ====
section
/-! DEFINITION. The textual syntax (30 R77), the pseudo-instruction HASH (30 R79) and the listing (30 R80). A text is a
list of characters. What the spec leaves open of the syntax is in log entry 8. -/

namespace Sys2Proof.Machine

/-- A line that is one command word: the four mnemonic forms and `.cw` (30 R77). -/
inductive AsmLine where
  | init (seed : Word)
  | block (b0 b1 b2 b3 : Byte)
  | tail (bs : List Byte)
  | final
  | cw (w : CmdWord)
deriving DecidableEq, Repr

/-- A statement: a line, or `HASH` with its seed and message (30 R79). -/
inductive AsmStatement where
  | line (l : AsmLine)
  | hash (seed : Option Word) (data : List Byte)
deriving DecidableEq, Repr

/-- The word of a line (30 R77, R78): ignored lanes and unused `CNT` fields are zero. -/
def assembleLine : AsmLine → CmdWord
  | .init seed => encode (.init seed)
  | .block b0 b1 b2 b3 => encode (.block b0 b1 b2 b3)
  | .tail bs => encode (.tail bs)
  | .final => encode .final
  | .cw w => w

/-- The words of a statement; `HASH` expands to `drive(seed, data)`, with seed 0 when it is omitted (30 R79). -/
def assembleStatement : AsmStatement → List CmdWord
  | .line l => [assembleLine l]
  | .hash seed data => driveCall seed data

/-- The mnemonic form of a command. -/
def mnemonicForm : Instr → AsmLine
  | .init seed => .init seed
  | .block b0 b1 b2 b3 => .block b0 b1 b2 b3
  | .tail bs => .tail bs
  | .final => .final

/-- The line a disassembler prints: `.cw` for a word the mnemonic forms cannot spell (30 R77). -/
def disassemble (w : CmdWord) : AsmLine :=
  match decode w with
  | .command i => if encode i = w then mnemonicForm i else .cw w
  | .reserved _ => .cw w

/-! ### Printing -/

/-- The hexadecimal digit of a number below 16. -/
def hexDigit (n : Nat) : Char := Char.ofNat (if n < 10 then 48 + n else 55 + n)

/-- The `k` lowest hexadecimal digits of `n`. -/
def hexDigits : Nat → Nat → List Char
  | 0, _ => []
  | k + 1, n => hexDigits k (n / 16) ++ [hexDigit (n % 16)]

/-- `0x` and `k` hexadecimal digits. -/
def hexNumeral (k n : Nat) : List Char := ['0', 'x'] ++ hexDigits k n

def kwInit : List Char := ['I', 'N', 'I', 'T']
def kwBlock : List Char := ['B', 'L', 'O', 'C', 'K']
def kwTail : List Char := ['T', 'A', 'I', 'L']
def kwFinal : List Char := ['F', 'I', 'N', 'A', 'L']
def kwCw : List Char := ['.', 'c', 'w']
def kwHash : List Char := ['H', 'A', 'S', 'H']

/-- Byte numerals, each after a blank. -/
def renderBytes (bs : List Byte) : List Char := bs.flatMap fun b => ' ' :: hexNumeral 2 b.toNat

/-- The text of a line (30 R77). -/
def renderLine : AsmLine → List Char
  | .init seed => kwInit ++ ' ' :: hexNumeral 8 seed.toNat
  | .block b0 b1 b2 b3 => kwBlock ++ renderBytes [b0, b1, b2, b3]
  | .tail bs => kwTail ++ renderBytes bs
  | .final => kwFinal
  | .cw w => kwCw ++ ' ' :: hexNumeral 9 w.toNat

/-- The name of a phase in a listing (10 R24). The values 5, 6 and 7 have no name in the spec: DESIGN CHOICE, log entry 8, a listing prints
their digit. -/
def phaseName : Phase → List Char
  | .idle => ['I', 'D', 'L', 'E']
  | .absorb => ['A', 'B', 'S', 'O', 'R', 'B']
  | .tailed => ['T', 'A', 'I', 'L', 'E', 'D']
  | .done => ['D', 'O', 'N', 'E']
  | .fault => ['F', 'A', 'U', 'L', 'T']
  | .unused5 => ['5']
  | .unused6 => ['6']
  | .unused7 => ['7']

/-- The fault code in a listing, where it is not `NONE` (95 section 8). The code 3 has no name in the spec (10 R27): DESIGN CHOICE, log
entry 8, a listing prints `ERRCODE=3`. -/
def errorNote : ErrCode → List Char
  | .none => []
  | .reservedEncoding => "  ERRCODE=RESERVED_ENCODING".toList
  | .outOfSequence => "  ERRCODE=OUT_OF_SEQUENCE".toList
  | .unused3 => "  ERRCODE=3".toList

/-- One line of a listing: the word, its text and the state after the step as `H LEN PHASE` (30 R80). DESIGN CHOICE, log entry 8:
the text of a word that no mnemonic form spells is `.cw` and the number, as a disassembler prints it (30 R77, 95 section 4);
95 P5, P6 and P9 print `.cw` and the fields in parentheses. Of the notes behind the state only the fault code is printed. -/
def listingLine (w : CmdWord) (s : State) : List Char :=
  hexNumeral 9 w.toNat ++ [' ', ' '] ++ renderLine (disassemble w) ++ [' ', ' '] ++ hexNumeral 8 s.h.toNat ++
    ' ' :: hexNumeral 8 s.len.toNat ++ ' ' :: phaseName s.phase ++ errorNote s.errcode

/-- The listing of a program, "a finite sequence of command words applied from a stated start state" (30 R80). -/
def listing : List CmdWord → State → List (List Char)
  | [], _ => []
  | w :: ws, s =>
    match accept w s with
    | .next s' => listingLine w s' :: listing ws s'
    | .fault _ => []
    | .refused _ => []

/-! ### Reading -/

/-- A token of a line. -/
inductive Token where
  /-- a mnemonic or a numeral -/
  | word (cs : List Char)
  | comma
  /-- a text in double quotes -/
  | text (cs : List Char)
deriving DecidableEq, Repr

/-- The double quote. -/
def quoteChar : Char := Char.ofNat 34

/-- The token of the characters read so far, in reverse order. -/
def pendingWord (cur : List Char) : List Token := if cur = [] then [] else [.word cur.reverse]

/-- The tokens of a line: blanks separate, `;` starts a comment, double quotes hold a text (30 R77, R79). `none` for a
text that does not end, or that begins inside a word. DESIGN CHOICE, log entry 8: a `;` inside a quoted text is a character of
the text and starts no comment, as is a blank or a comma there; 30 R77 lets `;` start a comment without exception, and R79
takes the bytes of the whole string. -/
def tokens : List Char → List Char → Bool → Option (List Token)
  | [], cur, inText => if inText then none else some (pendingWord cur)
  | c :: cs, cur, inText =>
    if inText then
      if c = quoteChar then (tokens cs [] false).map (.text cur.reverse :: ·) else tokens cs (c :: cur) true
    else if c = ';' then some (pendingWord cur)
    else if c = ' ' ∨ c = '\t' then (tokens cs [] false).map (pendingWord cur ++ ·)
    else if c = ',' then (tokens cs [] false).map (pendingWord cur ++ .comma :: ·)
    else if c = quoteChar then if cur = [] then tokens cs [] true else none
    else tokens cs (c :: cur) false

/-- The value of a digit of the base 10 or 16; hexadecimal digits in either case (00 R8). -/
def digitValue (base : Nat) (c : Char) : Option Nat :=
  let n := c.toNat
  let v := if 48 ≤ n ∧ n ≤ 57 then n - 48 else if 65 ≤ n ∧ n ≤ 70 then n - 55 else if 97 ≤ n ∧ n ≤ 102 then n - 87 else 16
  if v < base then some v else none

/-- The value of a run of digits after the value `acc`. -/
def digitsValue (base : Nat) : List Char → Nat → Option Nat
  | [], acc => some acc
  | c :: cs, acc => (digitValue base c).bind fun d => digitsValue base cs (acc * base + d)

/-- A numeral: `0x` and hexadecimal digits, or decimal digits (30 R77). -/
def numeralValue (cs : List Char) : Option Nat :=
  if cs.take 2 = ['0', 'x'] then if cs.length = 2 then none else digitsValue 16 (cs.drop 2) 0
  else if cs = [] then none
  else digitsValue 10 cs 0

/-- A numeral below `2 ^ n` (30 R77), as a bit vector. -/
def readNumeral (n : Nat) (cs : List Char) : Option (BitVec n) :=
  (numeralValue cs).bind fun v => if v < 2 ^ n then some (BitVec.ofNat n v) else none

/-- Byte numerals. -/
def readBytes : List Token → Option (List Byte)
  | [] => some []
  | .word cs :: ts => (readNumeral 8 cs).bind fun b => (readBytes ts).map (b :: ·)
  | .comma :: _ => none
  | .text _ :: _ => none

/-- The bytes of an ASCII text, one a character, no terminator (30 R79; 93 G3). -/
def readText : List Char → Option (List Byte)
  | [] => some []
  | c :: cs => if c.toNat < 128 then (readText cs).map (BitVec.ofNat 8 c.toNat :: ·) else none

/-- The message of a `HASH`: one text, or byte numerals. -/
def readMessage (ts : List Token) : Option (List Byte) :=
  match ts with
  | [.text cs] => readText cs
  | _ => readBytes ts

/-- The operands of `HASH`: a seed and a comma before the message, or the message alone (30 R79). -/
def readHash (ts : List Token) : Option AsmStatement :=
  match ts with
  | .word cs :: .comma :: rest => (readNumeral 32 cs).bind fun seed => (readMessage rest).map (.hash (some seed))
  | _ => (readMessage ts).map (.hash none)

/-- The statement of a line's tokens after the mnemonic `k`. -/
def readOperands (k : List Char) (ts : List Token) : Option AsmStatement :=
  if k = kwInit then
    match ts with
    | [.word cs] => (readNumeral 32 cs).map fun seed => .line (.init seed)
    | _ => none
  else if k = kwBlock then
    match readBytes ts with
    | some [b0, b1, b2, b3] => some (.line (.block b0 b1 b2 b3))
    | _ => none
  else if k = kwTail then
    match readBytes ts with
    | some bs => if bs.length ≤ 3 then some (.line (.tail bs)) else none
    | none => none
  else if k = kwFinal then if ts = [] then some (.line .final) else none
  else if k = kwCw then
    match ts with
    | [.word cs] => (readNumeral 36 cs).map fun w => .line (.cw w)
    | _ => none
  else if k = kwHash then readHash ts
  else none

/-- The words of one line of text; none for a line with no statement. -/
def assembleText (cs : List Char) : Option (List CmdWord) :=
  match tokens cs [] false with
  | some [] => some []
  | some (.word k :: ts) => (readOperands k ts).map assembleStatement
  | _ => none

/-- The words of a program text, given line by line. -/
def assembleProgram : List (List Char) → Option (List CmdWord)
  | [] => some []
  | l :: ls => (assembleText l).bind fun ws => (assembleProgram ls).map (ws ++ ·)

end Sys2Proof.Machine
end

