-- ==== Sys2Proof/Config.lean ====
section
/-! DEFINITION. The parameters the spec leaves open (92, open parameters; 00 R7): the latencies. -/

namespace Sys2Proof

/-- The latencies of 70 R201, a parameter of the CYCLE-LEVEL machine only (Machine/Cycle.lean): "No rule of this
spec depends on their values". Each `T` is finite and at least 1, so a field holds `T - 1`, the number of cycles
in which `cmd_ready` stays 0 after an acceptance (70 R195). `busyReserved` is for a reserved word, whose latency
the spec gives no name (70 R202 only promises that it is finite): DESIGN CHOICE, log entry 7, safe (statements
hold for every value). -/
structure Latency where
  /-- `T_INIT - 1` -/
  busyInit : Nat
  /-- `T_BLOCK - 1` -/
  busyBlock : Nat
  /-- `T_TAIL - 1` -/
  busyTail : Nat
  /-- `T_FINAL - 1` -/
  busyFinal : Nat
  /-- the same for a reserved word (log entry 7) -/
  busyReserved : Nat
deriving DecidableEq, Repr

end Sys2Proof
end

