-- ==== Sys2Proof/Machine/Cycle.lean ====
section
/-! DEFINITION. The CYCLE-LEVEL machine: the valid/ready handshake of spec/70_reset_and_hazards.md, for any
latencies, and a host that obeys it. It is beside the transaction-level `step`, which "is the whole command" (70 R201);
93 U8: it "must give the same sequence of architectural states for every choice". Log entry 7. -/

namespace Sys2Proof.Machine

/-- A command being executed: its word, and the clock edges still to come after the next one. -/
structure InFlight where
  word : CmdWord
  left : Nat
deriving DecidableEq, Repr

/-- A unit between two clock edges: its registers as the ports show them, and the command in flight (10 R32: "not
observable"). -/
structure CycleState where
  unit : State
  inFlight : Option InFlight
deriving DecidableEq, Repr

/-- In how many cycles `cmd_ready` stays 0 after the word is accepted (70 R195, R201). -/
def busyCycles (t : Latency) (w : CmdWord) : Nat :=
  match decode w with
  | .command (.init _) => t.busyInit
  | .command (.block _ _ _ _) => t.busyBlock
  | .command (.tail _) => t.busyTail
  | .command .final => t.busyFinal
  | .reserved _ => t.busyReserved

/-- The port `cmd_ready` in a cycle with these pins (70 R190, R195): 0 while `rst = 1`, and while a command is in
flight. -/
def cycleReady (p : Pins) (c : CycleState) : Bool := cmdReady p && c.inFlight.isNone

/-- Whether the presented word is accepted in this cycle (70 R194). -/
def cycleAccepts (p : Pins) (c : CycleState) : Bool := p.cmdValid && cycleReady p c

/-- A clock edge of a unit that executes `w`, with `n` busy cycles to come: after the last, the step's new state is
in the registers, whole (70 R195). -/
def advance (w : CmdWord) (n : Nat) (u : State) : Host.Outcome CycleState Fault Refusal :=
  match n with
  | 0 => andThen (accept w u) fun u' => .next { unit := u', inFlight := none }
  | k + 1 => .next { unit := u, inFlight := some { word := w, left := k } }

/-- One clock edge. Reset wins over everything and abandons a command in flight (70 R190, R191; 93 U13). A command in
flight advances, and a word presented meanwhile has no effect (70 R194). Else a presented word is accepted. -/
def clock (t : Latency) (p : Pins) (c : CycleState) : Host.Outcome CycleState Fault Refusal :=
  if p.rst then .next { unit := resetUnit c.unit, inFlight := none }
  else
    match c.inFlight with
    | some f => advance f.word f.left c.unit
    | none => if p.cmdValid then advance p.cmdWord (busyCycles t p.cmdWord) c.unit else .next c

/-- The clock over a list of samples of the pins, one a cycle. -/
def clockRun (t : Latency) : List Pins → CycleState → Host.Outcome CycleState Fault Refusal
  | [], c => .next c
  | p :: ps, c => andThen (clock t p c) (clockRun t ps)

/-- The transactions among the cycles: the resets and the acceptances, in order (70 R194). -/
def transactions (t : Latency) : List Pins → CycleState → List Pins
  | [], _ => []
  | p :: ps, c =>
    let rest :=
      match clock t p c with
      | .next c' => transactions t ps c'
      | .fault _ => []
      | .refused _ => []
    if p.rst || cycleAccepts p c then p :: rest else rest

/-! ### A host that obeys the driver contract (45 R156), at any pace -/

/-- The host and its unit. The host's pace is data: "an operation may be spread over any length of time" (70 R200), and the spec
fixes no pace. DESIGN CHOICE, log entry 11: pauses are finite, and counted as the two fields say. -/
structure HostCycle where
  /-- the words still to deliver; before each, the cycles the host pauses, once the word before it is accepted, before it
  presents the word -/
  toSend : List (Nat × CmdWord)
  /-- the cycles with the result on the port that the host lets pass before it reads -/
  readAfter : Nat
  /-- the unit -/
  cycle : CycleState
  /-- the result the host has read -/
  got : Option Word
deriving DecidableEq, Repr

/-- What the host drives: nothing in a pause, else its next word, with `cmd_valid` and `cmd_word` steady until the cycle of
acceptance (70 R194). Any pace of presenting is a choice of pauses; that the host never asserts `rst` and never drops a word it
presents is 45 R156 (a) and 70 R194 (log entry 11). -/
def hostPins : List (Nat × CmdWord) → Pins
  | [] => quiet
  | (0, w) :: _ => present w
  | (_ + 1, _) :: _ => quiet

/-- What is left to deliver after a cycle: a pause is a cycle shorter (whether the unit is ready or not: log entry 11), and an
accepted word is delivered. -/
def hostNext (accepted : Bool) : List (Nat × CmdWord) → List (Nat × CmdWord)
  | [] => []
  | (0, w) :: ws => if accepted then ws else (0, w) :: ws
  | (k + 1, w) :: ws => (k, w) :: ws

/-- Whether the host can read the result in this cycle: every word is delivered, it has read none yet, and `res_valid` is 1
(45 R156 (d), 70 R196). It does so in the first such cycle or in a later one, as `readAfter` says (log entry 11). -/
def hostSeesResult (x : HostCycle) : Bool := x.toSend.isEmpty && x.got.isNone && resValid x.cycle.unit

/-- One clock cycle of host and unit. The host acts on what the ports show before the edge, at the pace of its pauses (DESIGN CHOICE,
log entry 11). -/
def hostClock (t : Latency) (x : HostCycle) : Host.Outcome HostCycle Fault Refusal :=
  andThen (clock t (hostPins x.toSend) x.cycle) fun c' => .next
    { toSend := hostNext (cycleAccepts (hostPins x.toSend) x.cycle) x.toSend
      readAfter := if hostSeesResult x then x.readAfter - 1 else x.readAfter
      cycle := c'
      got := if hostSeesResult x ∧ x.readAfter = 0 then some (resData x.cycle.unit) else x.got }

/-- `n` clock cycles of host and unit. -/
def hostRun (t : Latency) : Nat → HostCycle → Host.Outcome HostCycle Fault Refusal
  | 0, x => .next x
  | n + 1, x => andThen (hostClock t x) (hostRun t n)

end Sys2Proof.Machine
end

