-- ==== Sys2Proof/Machine/Hash.lean ====
section
/-! DEFINITION. The hash function as the source defines it, without reference to the unit (45 R155). -/

namespace Sys2Proof.Machine

/-- Step 3 of 45 R155: the block loop over blocks `0 .. n-1`, each round taking the value left by the one before
(42 R122). -/
def blockLoop (data : List Byte) (n : Nat) (seed : Word) : Word :=
  (List.range n).foldl (fun h i => blockRound h (messageBlock data i)) seed

/-- `hash(seed, data)` (45 R155), with the length injected modulo 2^32. -/
def hashFn (seed : Word) (data : List Byte) : Word :=
  fmix (tailRound (blockLoop data (nblocks data) seed) (tailAssemble (messageTail data)))
    (BitVec.ofNat 32 data.length)

end Sys2Proof.Machine
end

