-- ==== Sys2Proof/Machine/Platform.lean ====
section
/-! DEFINITION. Several units (60 R184): they "share no state of any kind"; each has its own registers and its own ports.
Log entry 9. -/

namespace Sys2Proof.Machine

/-- Unit number `k` makes a step; a number no unit has does nothing. -/
def platformStep (k : Nat) (us : List State) : Host.Outcome (List State) Fault Refusal :=
  match us[k]? with
  | none => .next us
  | some u => andThen (step u) fun u' => .next (us.set k u')

/-- The units step in the order of a schedule. -/
def platformRun : List Nat → List State → Host.Outcome (List State) Fault Refusal
  | [], us => .next us
  | k :: ks, us => andThen (platformStep k us) (platformRun ks)

end Sys2Proof.Machine
end

