-- ==== Sys2Proof/Safety.lean ====
section
/-! DEFINITION. What the statements say of states and steps: the invariant of 10 R35, the transition table of 45 R150,
and the words a step accepts. -/

namespace Sys2Proof.Machine

/-- `PHASE` is one of 0 to 4 (10 R35). -/
abbrev State.PhaseNamed (s : State) : Prop := (phaseBits s.phase).toNat ≤ 4

/-- The invariant of 10 R35: `PHASE` is one of 0 to 4; `ERRCODE` is one of 0, 1, 2; `ERRCODE ≠ NONE` exactly when
`PHASE = FAULT`; in `IDLE`, `H = 0` and `LEN = 0`; in `ABSORB`, `LEN mod 4 = 0`. -/
abbrev State.Inv (s : State) : Prop :=
  s.PhaseNamed ∧ (errBits s.errcode).toNat ≤ 2 ∧ (s.errcode ≠ .none ↔ s.phase = .fault) ∧
    (s.phase = .idle → s.h = 0 ∧ s.len = 0) ∧ (s.phase = .absorb → s.len.toNat % 4 = 0)

/-- The columns of the table of 45 R150. -/
inductive Column where
  | init
  | block
  | tail
  | final
  | reserved
deriving DecidableEq, Repr

/-- The column of a decoded word. -/
def column : Decoded → Column
  | .command (.init _) => .init
  | .command (.block _ _ _ _) => .block
  | .command (.tail _) => .tail
  | .command .final => .final
  | .reserved _ => .reserved

/-- The rows of the table of 45 R150 for the five phases, in the order of its columns: the phase after the step and, for
an entry `FAULT` (1) or (2), the code. `none` stands for "nothing changes": `FAULT` (kept), and the phases 5 to 7, treated as
`FAULT` (45 R152). -/
def tableEntry : Phase → Column → Option (Phase × Option ErrCode)
  | _, .init => some (.absorb, none)
  | .idle, .block => some (.fault, some .outOfSequence)
  | .idle, .tail => some (.fault, some .outOfSequence)
  | .idle, .final => some (.fault, some .outOfSequence)
  | .idle, .reserved => some (.fault, some .reservedEncoding)
  | .absorb, .block => some (.absorb, none)
  | .absorb, .tail => some (.tailed, none)
  | .absorb, .final => some (.done, none)
  | .absorb, .reserved => some (.fault, some .reservedEncoding)
  | .tailed, .block => some (.fault, some .outOfSequence)
  | .tailed, .tail => some (.fault, some .outOfSequence)
  | .tailed, .final => some (.done, none)
  | .tailed, .reserved => some (.fault, some .reservedEncoding)
  | .done, .block => some (.fault, some .outOfSequence)
  | .done, .tail => some (.fault, some .outOfSequence)
  | .done, .final => some (.fault, some .outOfSequence)
  | .done, .reserved => some (.fault, some .reservedEncoding)
  | .fault, .block => none
  | .fault, .tail => none
  | .fault, .final => none
  | .fault, .reserved => none
  | .unused5, .block => none
  | .unused5, .tail => none
  | .unused5, .final => none
  | .unused5, .reserved => none
  | .unused6, .block => none
  | .unused6, .tail => none
  | .unused6, .final => none
  | .unused6, .reserved => none
  | .unused7, .block => none
  | .unused7, .tail => none
  | .unused7, .final => none
  | .unused7, .reserved => none

/-- The word a step accepts: the one presented first, unless `rst` is 1 (70 R194). -/
def acceptedWord (s : State) : Option CmdWord :=
  match s.pins with
  | [] => none
  | p :: _ => if p.rst = false ∧ p.cmdValid = true then some p.cmdWord else none

/-- Whether the next step is a reset (70 R190). -/
def nextIsReset (s : State) : Bool :=
  match s.pins with
  | [] => false
  | p :: _ => p.rst

/-- A run is safe when it does not stand in `FAULT`: the operation is not lost (60 R176). -/
abbrev State.Safe (s : State) : Prop := s.phase ≠ .fault

end Sys2Proof.Machine
end

