-- ==== Sys2Proof/Certificates/Slice0/Obligations.lean ====
section
/-! DEFINITION. The statements for the provers. Each names the rule of spec/ it formalises. -/

open Sys2Proof Sys2Proof.Machine

/-! ### Command words (spec/30_encoding.md) -/

/-- Words written out from the encodings of 30 R73 decode as 95 section 4 lists them. -/
def Obligations.SampleWordsDecode : Prop :=
  decode 0x09747B28C = .command (.init 0x9747B28C) ∧
  decode 0x464636261 = .command (.block 0x61 0x62 0x63 0x64) ∧
  decode 0x8DEADBEEF = .command (.tail []) ∧
  decode 0x9FFFFFF61 = .command (.tail [0x61]) ∧
  decode 0xA00006261 = .command (.tail [0x61, 0x62]) ∧
  decode 0xB64636261 = .command (.tail [0x61, 0x62, 0x63]) ∧
  decode 0xC00000000 = .command .final ∧
  decode 0x300000007 = .reserved .initWithCount ∧
  decode 0x764636261 = .reserved .blockWithCount ∧
  decode 0xC00000001 = .reserved .finalWithOperand ∧
  decode 0xE00000000 = .reserved .finalWithOperand

/-- 30 R78: what `encode` is, and that `decode` and `encode` are inverse on the words the mnemonic forms spell. -/
def Obligations.DecodeEncodeAgree : Prop :=
  (∀ seed : Word, encode (.init seed) = 0b00#2 ++ 0b00#2 ++ seed) ∧
  (∀ b0 b1 b2 b3 : Byte, encode (.block b0 b1 b2 b3) = 0b01#2 ++ 0b00#2 ++ b3 ++ b2 ++ b1 ++ b0) ∧
  (∀ bs : List Byte, bs.length ≤ 3 → encode (.tail bs) = 0b10#2 ++ BitVec.ofNat 2 bs.length ++ le bs) ∧
  encode .final = 0b11#2 ++ 0b00#2 ++ 0x00000000#32 ∧
  (∀ i : Instr, i.wf = true → decode (encode i) = .command i) ∧
  (∀ (w : CmdWord) (i : Instr), decode w = .command i →
    encode i = clearIgnoredLanes w ∧
    (opField w ≠ 0b10#2 ∨ dataField w &&& ~~~tailmask (cntField w) = 0#32 → encode i = w))

/-- 30 R73: a row of the opcode map selects a word by its mask and match exactly when the word decodes to that row's
command with the operands of the row's pattern, and a word no row selects is reserved. -/
def Obligations.RowsSelectWords : Prop :=
  ∀ w : CmdWord,
    (w &&& 0xF00000000 = 0x000000000 ↔ decode w = .command (.init (w.extractLsb' 0 32))) ∧
    (w &&& 0xF00000000 = 0x400000000 ↔
      decode w = .command
        (.block (w.extractLsb' 0 8) (w.extractLsb' 8 8) (w.extractLsb' 16 8) (w.extractLsb' 24 8))) ∧
    (w &&& 0xC00000000 = 0x800000000 ↔
      decode w = .command
        (.tail ([w.extractLsb' 0 8, w.extractLsb' 8 8, w.extractLsb' 16 8].take (w.extractLsb' 32 2).toNat))) ∧
    (w &&& 0xFFFFFFFFF = 0xC00000000 ↔ decode w = .command .final) ∧
    ((∃ k, decode w = .reserved k) ↔
      w &&& 0xF00000000 ≠ 0x000000000 ∧ w &&& 0xF00000000 ≠ 0x400000000 ∧
      w &&& 0xC00000000 ≠ 0x800000000 ∧ w &&& 0xFFFFFFFFF ≠ 0xC00000000)

/-- 30 R75: which words are reserved, and what accepting one does. (In the phases 5 to 7, which no run reaches, a reserved
word is dropped, 45 R152; `PhaseNamed` leaves them out of the clause on faulting.) -/
def Obligations.ReservedWordsFault : Prop :=
  ∀ (w : CmdWord) (s : State),
    ((∃ k, decode w = .reserved k) ↔
      (w.extractLsb' 34 2 = 0b00#2 ∧ w.extractLsb' 32 2 ≠ 0#2) ∨
      (w.extractLsb' 34 2 = 0b01#2 ∧ w.extractLsb' 32 2 ≠ 0#2) ∨
      (w.extractLsb' 34 2 = 0b11#2 ∧ (w.extractLsb' 32 2 ≠ 0#2 ∨ w.extractLsb' 0 32 ≠ 0#32))) ∧
    ((∃ k, decode w = .reserved k) →
      (s.PhaseNamed → s.phase ≠ .fault →
        accept w s = .next { s with phase := .fault, errcode := .reservedEncoding }) ∧
      (s.phase = .fault → accept w s = .next s) ∧
      (∀ t, accept w s = .next t → t.h = s.h ∧ t.len = s.len))

/-- 30 R74, last paragraph: two words decode to the same command only when they are equal or are `TAIL` words that differ only
in ignored lanes, and such `TAIL` words do. -/
def Obligations.OnlyIgnoredLanesMerge : Prop :=
  (∀ (w w' : CmdWord) (i : Instr), decode w = .command i → decode w' = .command i →
    w = w' ∨
    (opField w = 0b10#2 ∧ opField w' = 0b10#2 ∧ cntField w = cntField w' ∧
      ∀ j < 8 * (cntField w).toNat, w.getLsbD j = w'.getLsbD j)) ∧
  (∀ w w' : CmdWord, opField w = 0b10#2 → opField w' = 0b10#2 → cntField w = cntField w' →
    (∀ j < 8 * (cntField w).toNat, w.getLsbD j = w'.getLsbD j) → decode w = decode w')

/-- 30 R76: how many words there are of each kind, and how many `TAIL` commands. -/
def Obligations.WordsOfEachKind : Prop :=
  Nat.card { w : CmdWord // ∃ seed, decode w = .command (.init seed) } = 2 ^ 32 ∧
  Nat.card { w : CmdWord // ∃ b0 b1 b2 b3, decode w = .command (.block b0 b1 b2 b3) } = 2 ^ 32 ∧
  Nat.card { w : CmdWord // ∃ bs, decode w = .command (.tail bs) } = 2 ^ 34 ∧
  Nat.card { bs : List Byte // ∃ w, decode w = .command (.tail bs) } = 1 + 2 ^ 8 + 2 ^ 16 + 2 ^ 24 ∧
  Nat.card { w : CmdWord // decode w = .command .final } = 1 ∧
  Nat.card { w : CmdWord // ∃ k, decode w = .reserved k } = 3 * 2 ^ 32 + 3 * 2 ^ 32 + (2 ^ 34 - 1) ∧
  2 ^ 32 + 2 ^ 32 + 2 ^ 34 + 1 + (3 * 2 ^ 32 + 3 * 2 ^ 32 + (2 ^ 34 - 1)) = 2 ^ 36

/-- 30 R72: how each operand is taken from the word. -/
def Obligations.OperandsFromTheWord : Prop :=
  ∀ w : CmdWord,
    (∀ seed, decode w = .command (.init seed) → seed = w.extractLsb' 0 32) ∧
    (∀ b0 b1 b2 b3, decode w = .command (.block b0 b1 b2 b3) →
      b0 = w.extractLsb' 0 8 ∧ b1 = w.extractLsb' 8 8 ∧ b2 = w.extractLsb' 16 8 ∧ b3 = w.extractLsb' 24 8 ∧
      blockValue b0 b1 b2 b3 = w.extractLsb' 0 32) ∧
    (∀ bs, decode w = .command (.tail bs) →
      bs.length = (w.extractLsb' 32 2).toNat ∧
      (∀ j < bs.length, bs[j]? = some (w.extractLsb' (8 * j) 8)) ∧
      tailAssemble bs = w.extractLsb' 0 32 &&& tailmask (w.extractLsb' 32 2)) ∧
    tailmask 0 = 0x00000000 ∧ tailmask 1 = 0x000000FF ∧ tailmask 2 = 0x0000FFFF ∧ tailmask 3 = 0x00FFFFFF

/-- 20 R54: little-endian assembly. Byte `j` of the value is the list's byte `j`; a byte position at or above the list's length is
zero. With the rule's examples. -/
def Obligations.LittleEndianAssembly : Prop :=
  (∀ (bs : List Byte) (j : Nat), bs.length ≤ 4 → j < 4 → (le bs).extractLsb' (8 * j) 8 = bs.getD j 0) ∧
  le [] = 0x00000000 ∧ le [0x61] = 0x00000061 ∧ le [0x61, 0x62, 0x63] = 0x00636261 ∧
  le [0x61, 0x62, 0x63, 0x64] = 0x64636261

/-! ### Arithmetic (spec/40_arithmetic.md) -/

/-- 40 R90 to R92, R94: the primitives, in terms of natural numbers and bits. -/
def Obligations.PrimitivesAsNumbers : Prop :=
  ∀ a b : Word,
    (mul32 a b).toNat = (a.toNat * b.toNat) % 2 ^ 32 ∧
    (add32 a b).toNat = (a.toNat + b.toNat) % 2 ^ 32 ∧
    (∀ i < 32, (xor32 a b).getLsbD i = (a.getLsbD i != b.getLsbD i)) ∧
    (∀ s ≤ 31, (shr32 a s).toNat = a.toNat / 2 ^ s)

/-- 40 R93: "bit `i` of `x` moves to bit `(i + r) mod 32`, and no bit is lost", the formula, and the rule's corner cases. -/
def Obligations.RotationMovesBits : Prop :=
  (∀ (x : Word) (r i : Nat), r ≤ 31 → i < 32 → (rotl32 x r).getLsbD ((i + r) % 32) = x.getLsbD i) ∧
  (∀ x : Word, rotl32 x 0 = x) ∧
  (∀ (x : Word) (r : Nat), 1 ≤ r → r ≤ 31 → rotl32 x r = (x <<< r) ||| (x >>> (32 - r))) ∧
  (∀ r ≤ 31, rotl32 0xFFFFFFFF r = 0xFFFFFFFF ∧ rotl32 0 r = 0) ∧
  rotl32 0x00000001 15 = 0x00008000 ∧ rotl32 0x80000000 15 = 0x00004000 ∧ rotl32 0x00020000 15 = 0x00000001 ∧
  rotl32 0x80000000 13 = 0x00001000 ∧ rotl32 0x00080000 13 = 0x00000001

/-- 40 R98: the laws of the datapath functions. -/
def Obligations.MixersAreBijections : Prop :=
  scramble 0 = 0 ∧
  Function.Bijective scramble ∧
  (∀ k, Function.Bijective fun h => blockRound h k) ∧
  (∀ h, Function.Bijective fun k => blockRound h k) ∧
  (∀ s, 1 ≤ s → s ≤ 31 → Function.Bijective fun x => xorShift x s) ∧
  (∀ n, Function.Bijective fun h => fmix h n) ∧
  (∀ h, fmix h 0 = 0 ↔ h = 0)

/-- 44 R143: the finalization is a bijection for a fixed length, and it sees only `H ^ LEN`. -/
def Obligations.FinalizationSeesOnlyTheXor : Prop :=
  (∀ n, Function.Bijective fun h => fmix h n) ∧
  (∀ h n h' n' : Word, fmix h n = fmix h' n' ↔ h ^^^ n = h' ^^^ n')

/-! ### The commands (spec/41 to 44) -/

/-- 41 R110: `INIT` in every phase. -/
def Obligations.InitLoadsTheSeed : Prop :=
  ∀ (seed : Word) (s : State),
    decode (0b00#2 ++ 0b00#2 ++ seed) = .command (.init seed) ∧
    ∃ t, exec (.init seed) s = .next t ∧
      t = { h := seed, len := 0x00000000, phase := .absorb, errcode := .none, pins := s.pins } ∧
      resValid t = false ∧ resData t = 0x00000000 ∧ statusPort t = 0b00001

/-- 42 R121: `BLOCK` in every phase, its effect written out from 40 R97 and 42 R120. -/
def Obligations.BlockAbsorbsFourBytes : Prop :=
  ∀ (b0 b1 b2 b3 : Byte) (s : State),
    decode (0b01#2 ++ 0b00#2 ++ b3 ++ b2 ++ b1 ++ b0) = .command (.block b0 b1 b2 b3) ∧
    (s.phase = .absorb →
      exec (.block b0 b1 b2 b3) s = .next { s with
        h := ((s.h ^^^ (((b3 ++ b2 ++ b1 ++ b0) * 0xcc9e2d51#32).rotateLeft 15 * 0x1b873593#32)).rotateLeft 13) * 5#32
               + 0xe6546b64#32
        len := s.len + 4 }) ∧
    (s.phase = .idle ∨ s.phase = .tailed ∨ s.phase = .done →
      exec (.block b0 b1 b2 b3) s = .next { s with phase := .fault, errcode := .outOfSequence }) ∧
    (s.phase = .fault → exec (.block b0 b1 b2 b3) s = .next s)

/-- 43 R132: `TAIL` in every phase and for every count, its effect written out per count from 40 R97 and 43 R131. -/
def Obligations.TailAbsorbsTheRest : Prop :=
  (∀ w : CmdWord, w.extractLsb' 34 2 = 0b10#2 →
    ∃ bs, decode w = .command (.tail bs) ∧ bs.length = (w.extractLsb' 32 2).toNat) ∧
  ∀ s : State,
    (s.phase = .absorb →
      exec (.tail []) s = .next { s with phase := .tailed } ∧
      (∀ b0 : Byte, exec (.tail [b0]) s = .next { s with
        h := s.h ^^^ (((0#24 ++ b0) * 0xcc9e2d51#32).rotateLeft 15 * 0x1b873593#32)
        len := s.len + 1
        phase := .tailed }) ∧
      (∀ b0 b1 : Byte, exec (.tail [b0, b1]) s = .next { s with
        h := s.h ^^^ (((0#16 ++ b1 ++ b0) * 0xcc9e2d51#32).rotateLeft 15 * 0x1b873593#32)
        len := s.len + 2
        phase := .tailed }) ∧
      (∀ b0 b1 b2 : Byte, exec (.tail [b0, b1, b2]) s = .next { s with
        h := s.h ^^^ (((0#8 ++ b2 ++ b1 ++ b0) * 0xcc9e2d51#32).rotateLeft 15 * 0x1b873593#32)
        len := s.len + 3
        phase := .tailed })) ∧
    (∀ bs : List Byte, bs.length ≤ 3 →
      (s.phase = .idle ∨ s.phase = .tailed ∨ s.phase = .done →
        exec (.tail bs) s = .next { s with phase := .fault, errcode := .outOfSequence }) ∧
      (s.phase = .fault → exec (.tail bs) s = .next s))

/-- 44 R141: `FINAL` in every phase, its effect written out from 44 R140. (`status` is `{ERRCODE, PHASE}`; it is 0b00011 where
`ERRCODE` is `NONE`, which it is outside `FAULT` by 10 R35.) -/
def Obligations.FinalPublishesTheResult : Prop :=
  decode 0xC00000000 = .command .final ∧
  ∀ s : State,
    (s.phase = .absorb ∨ s.phase = .tailed →
      ∃ t, exec .final s = .next t ∧
        (∀ a b c d e f : Word,
          a = s.h ^^^ s.len → b = a ^^^ (a >>> 16) → c = b * 0x85ebca6b → d = c ^^^ (c >>> 13) →
          e = d * 0xc2b2ae35 → f = e ^^^ (e >>> 16) →
          t = { s with h := f, phase := .done } ∧ resData t = f) ∧
        resValid t = true ∧ (s.errcode = .none → statusPort t = 0b00011)) ∧
    (s.phase = .idle ∨ s.phase = .done →
      exec .final s = .next { s with phase := .fault, errcode := .outOfSequence }) ∧
    (s.phase = .fault → exec .final s = .next s)

/-- 43 R133: the empty tail is the identity on the running hash, and `TAIL; FINAL` with no bytes gives the same state as `FINAL`
alone. -/
def Obligations.EmptyTailChangesNothing : Prop :=
  scramble 0 = 0 ∧ (∀ h, tailRound h (tailAssemble []) = h) ∧
  ∀ s : State, s.phase = .absorb →
    runWords [encode (.tail []), encode .final] s = runWords [encode .final] s ∧
    ∃ t, runWords [encode .final] s = .next t ∧ t.phase = .done

/-- 10 R36: what each command reads and writes. Unwritten registers keep their values; a result depends on the read ones only.
The pins, the model's own field (log entry 1), are never touched. -/
def Obligations.AccessTable : Prop :=
  (∀ (seed : Word) (s s' : State), s.pins = s'.pins → exec (.init seed) s = exec (.init seed) s') ∧
  (∀ s s' : State, s.pins = s'.pins → resetUnit s = resetUnit s') ∧
  (∀ (i : Instr) (s t : State), exec i s = .next t → t.pins = s.pins) ∧
  (∀ (i : Instr) (s t : State), (∀ seed, i ≠ .init seed) → exec i s = .next t →
    (s.phase = .fault → t = s) ∧
    (legal s.phase (.command i) = true → t.errcode = s.errcode) ∧
    (legal s.phase (.command i) = true → (∀ bs, i ≠ .tail bs) → i ≠ .final → t.phase = s.phase) ∧
    (i = .final → t.len = s.len) ∧
    (legal s.phase (.command i) = false → t.h = s.h ∧ t.len = s.len)) ∧
  (∀ (i : Instr) (s s' t t' : State), (∀ seed, i ≠ .init seed) → exec i s = .next t → exec i s' = .next t' →
    s.phase = s'.phase → s.phase ≠ .fault →
    t.phase = t'.phase ∧
    (s.h = s'.h → s.len = s'.len → t.h = t'.h ∧ t.len = t'.len) ∧
    (s.PhaseNamed → legal s.phase (.command i) = false → t.errcode = t'.errcode))

/-! ### Sequencing (spec/45, spec/60) -/

/-- 45 R150: the transition table. -/
def Obligations.PhaseMovesByTheTable : Prop :=
  ∀ (w : CmdWord) (s t : State), accept w s = .next t →
    (tableEntry s.phase (column (decode w)) = none → t = s) ∧
    (∀ p c, tableEntry s.phase (column (decode w)) = some (p, some c) → t = { s with phase := p, errcode := c }) ∧
    (∀ p, tableEntry s.phase (column (decode w)) = some (p, none) →
      t.phase = p ∧ (column (decode w) = .init → t.errcode = .none) ∧
      (column (decode w) ≠ .init → t.errcode = s.errcode))

/-- 45 R151: which commands are legal in which phase. -/
def Obligations.LegalPhases : Prop :=
  ∀ (p : Phase) (c : Decoded),
    legal p c = true ↔
      (∃ seed, c = .command (.init seed)) ∨
      ((∃ b0 b1 b2 b3, c = .command (.block b0 b1 b2 b3)) ∧ p = .absorb) ∨
      ((∃ bs, c = .command (.tail bs)) ∧ p = .absorb) ∨
      (c = .command .final ∧ (p = .absorb ∨ p = .tailed))

/-- A step runs the decoded command: when the pins present a word without reset, the step is `exec` of the command it decodes to,
at the state with that sample of the pins taken; a reserved word goes to `acceptReserved`; a decoded command is well formed. -/
def Obligations.StepRunsTheDecodedCommand : Prop :=
  ∀ (s : State) (w : CmdWord) (ps : List Pins), s.pins = { rst := false, cmdValid := true, cmdWord := w } :: ps →
    (∀ i, decode w = .command i → i.wf = true ∧ step s = exec i { s with pins := ps }) ∧
    (∀ k, decode w = .reserved k → step s = acceptReserved { s with pins := ps })

/-- The word `withFetchWord` presents is the one the next step runs (log entry 1). -/
def Obligations.FetchedWordRunsNext : Prop :=
  ∀ (s : State) (nbits w : Nat) (i : Instr), decodeTableWord nbits w = some i →
    step (s.withFetchWord nbits w) = exec i s

/-- 45 R152, 93 part 1: "every state, every 36-bit word, and reset have a successor". The model never faults or refuses. -/
def Obligations.EveryStepHasASuccessor : Prop :=
  (∀ s : State, ∃ t, step s = .next t) ∧
  (∀ (w : CmdWord) (s : State), ∃ t, accept w s = .next t ∧ t.pins = s.pins)

/-- 60 R171: a step outside `FAULT` raises `RESERVED_ENCODING` exactly on a reserved word and `OUT_OF_SEQUENCE` exactly on the
commands and phases the rule lists; code 3 is never produced. (`Inv`, 10 R35, says that `ERRCODE` was `NONE` before.) -/
def Obligations.WhatRaisesEachFault : Prop :=
  ∀ (w : CmdWord) (s t : State), s.Inv → s.phase ≠ .fault → accept w s = .next t →
    (t.errcode = .reservedEncoding ↔ ∃ k, decode w = .reserved k) ∧
    (t.errcode = .outOfSequence ↔
      ((∃ b0 b1 b2 b3, decode w = .command (.block b0 b1 b2 b3)) ∧
        (s.phase = .idle ∨ s.phase = .tailed ∨ s.phase = .done)) ∨
      ((∃ bs, decode w = .command (.tail bs)) ∧ (s.phase = .idle ∨ s.phase = .tailed ∨ s.phase = .done)) ∨
      (decode w = .command .final ∧ (s.phase = .idle ∨ s.phase = .done))) ∧
    t.errcode ≠ .unused3

/-- 60 R175, R172: faults are precise. A step that enters `FAULT` changes `PHASE` and `ERRCODE` and nothing else. -/
def Obligations.FaultsArePrecise : Prop :=
  ∀ (w : CmdWord) (s t : State), accept w s = .next t → s.phase ≠ .fault → t.phase = .fault →
    t = { s with phase := .fault, errcode := t.errcode } ∧
    (t.errcode = .reservedEncoding ∨ t.errcode = .outOfSequence)

/-- 60 R176: fault entry, and what the ports show after it. -/
def Obligations.FaultEntry : Prop :=
  ∀ (code : ErrCode) (s : State),
    raiseFault code s = { s with phase := .fault, errcode := code } ∧
    statusPort (raiseFault code s) = errBits code ++ 0b100#3 ∧
    statusPort (raiseFault .reservedEncoding s) = 0b01100 ∧
    statusPort (raiseFault .outOfSequence s) = 0b10100 ∧
    resValid (raiseFault code s) = false ∧ resData (raiseFault code s) = 0

/-- 60 R177: in `FAULT` a word other than an `INIT` is accepted and dropped. -/
def Obligations.FaultDropsWords : Prop :=
  ∀ (w : CmdWord) (s : State), s.phase = .fault → (∀ seed, decode w ≠ .command (.init seed)) →
    accept w s = .next s ∧
    cmdReady (present w) = true ∧
    ∀ ps, s.pins = present w :: ps → step s = .next { s with pins := ps }

/-- 60 R178: the only ways out of `FAULT`, and the only ways to clear `ERRCODE` there, are `INIT` and reset. -/
def Obligations.WaysOutOfFault : Prop :=
  (∀ s t : State, s.phase = .fault → step s = .next t → t.phase ≠ .fault ∨ t.errcode ≠ s.errcode →
    (∃ w seed, acceptedWord s = some w ∧ decode w = .command (.init seed) ∧
      t = { h := seed, len := 0, phase := .absorb, errcode := .none, pins := s.pins.tail }) ∨
    (nextIsReset s = true ∧
      t = { h := 0, len := 0, phase := .idle, errcode := .none, pins := s.pins.tail })) ∧
  (∀ (seed : Word) (s : State), s.phase = .fault →
    exec (.init seed) s = .next { h := seed, len := 0, phase := .absorb, errcode := .none, pins := s.pins })

/-- 60 R174: the encoding test is made before the sequence test; reset wins over a presented word; `FAULT` raises nothing. -/
def Obligations.FaultPriority : Prop :=
  (∀ (w : CmdWord) (k : ReservedKind) (s : State), decode w = .reserved k → s.PhaseNamed → s.phase ≠ .fault →
    accept w s = .next { s with phase := .fault, errcode := .reservedEncoding }) ∧
  (∀ (s : State) (w : CmdWord) (ps : List Pins), s.pins = { rst := true, cmdValid := true, cmdWord := w } :: ps →
    step s = .next { h := 0, len := 0, phase := .idle, errcode := .none, pins := ps }) ∧
  (∀ (w : CmdWord) (s t : State), s.phase = .fault → accept w s = .next t →
    t.errcode = s.errcode ∨ ∃ seed, decode w = .command (.init seed) ∧ t.errcode = .none)

/-- A step enters `DONE` only by accepting a `FINAL` in `ABSORB` or `TAILED`, and then `H` is the finalization (45 R150, 44 R141). -/
def Obligations.OnlyFinalFinishes : Prop :=
  ∀ s t : State, step s = .next t → s.phase ≠ .done → t.phase = .done →
    (∃ w, acceptedWord s = some w ∧ decode w = .command .final) ∧
    (s.phase = .absorb ∨ s.phase = .tailed) ∧
    t = { s with h := fmix s.h s.len, phase := .done, pins := s.pins.tail }

/-! ### State, ports, reset (spec/10, spec/70) -/

/-- 10 R34: the reset state and the ports in it. -/
def Obligations.ResetState : Prop :=
  State.reset.h = 0x00000000 ∧ State.reset.len = 0x00000000 ∧ State.reset.phase = .idle ∧ State.reset.errcode = .none ∧
  statusPort State.reset = 0b00000 ∧ resValid State.reset = false ∧ resData State.reset = 0x00000000

/-- 10 R28: `status[2:0] = PHASE`, `status[4:3] = ERRCODE`; the port tells the two apart whatever their values; only a command or
reset changes them. -/
def Obligations.StatusShowsPhaseAndCode : Prop :=
  (∀ s : State, (statusPort s).extractLsb' 0 3 = phaseBits s.phase ∧ (statusPort s).extractLsb' 3 2 = errBits s.errcode) ∧
  (∀ s s' : State, statusPort s = statusPort s' ↔ s.phase = s'.phase ∧ s.errcode = s'.errcode) ∧
  (∀ s t : State, step s = .next t → t.phase ≠ s.phase ∨ t.errcode ≠ s.errcode →
    nextIsReset s = true ∨ ∃ w, acceptedWord s = some w)

/-- 10 R29: the result port; the result stays until an `INIT`, a fault or reset; outside `DONE` no port shows `H` or `LEN`. -/
def Obligations.ResultPort : Prop :=
  (∀ s : State, (resValid s = true ↔ s.phase = .done) ∧ (s.phase = .done → resData s = s.h) ∧
    (s.phase ≠ .done → resData s = 0x00000000)) ∧
  (∀ s t : State, s.phase = .done → step s = .next t →
    (resValid t = true ∧ resData t = resData s) ∨
    (∃ w seed, acceptedWord s = some w ∧ decode w = .command (.init seed)) ∨ t.phase = .fault ∨ nextIsReset s = true) ∧
  (∀ s s' : State, s.phase ≠ .done → s.phase = s'.phase → s.errcode = s'.errcode →
    resValid s = resValid s' ∧ resData s = resData s' ∧ statusPort s = statusPort s')

/-- The invariant of 10 R35 holds in the reset state. -/
def Obligations.InvariantAtReset : Prop := State.reset.Inv

/-- The invariant of 10 R35 is kept by every step, from every state that has it. -/
def Obligations.InvariantKeptByStep : Prop :=
  ∀ s t : State, s.Inv → step s = .next t → t.Inv

/-- 10 R35: every state reached from reset by any words and resets meets the invariant; in the phases 5 to 7 only `INIT` has an
effect. -/
def Obligations.ReachableStates : Prop :=
  (∀ (ps : List Pins) (n : Nat) (t : State),
    core.run n { State.reset with pins := ps } = .next t → t.Inv) ∧
  (∀ (w : CmdWord) (s : State), ¬ s.PhaseNamed →
    (∃ seed, decode w = .command (.init seed)) ∨ accept w s = .next s)

/-- 70 R190: in a step with `rst = 1` the registers take their reset values, and the presented word is not taken. Nothing but reset
and an accepted word changes a register. -/
def Obligations.ResetWins : Prop :=
  (∀ (s : State) (valid : Bool) (w : CmdWord) (ps : List Pins),
    s.pins = { rst := true, cmdValid := valid, cmdWord := w } :: ps →
    step s = .next { h := 0, len := 0, phase := .idle, errcode := .none, pins := ps } ∧
    cmdReady { rst := true, cmdValid := valid, cmdWord := w } = false) ∧
  (∀ s t : State, step s = .next t → t.h ≠ s.h ∨ t.len ≠ s.len ∨ t.phase ≠ s.phase ∨ t.errcode ≠ s.errcode →
    nextIsReset s = true ∨ ∃ w, acceptedWord s = some w)

/-- 70 R200: with no reset and nothing presented the unit holds its state, for any length of time. -/
def Obligations.WaitsForEver : Prop :=
  (∀ s : State, nextIsReset s = false → acceptedWord s = none → step s = .next { s with pins := s.pins.tail }) ∧
  (∀ (n : Nat) (s : State), (∀ p ∈ s.pins, p.rst = false ∧ p.cmdValid = false) →
    core.run n s = .next { s with pins := s.pins.drop n })

/-- 10 R33: no value left from one operation influences another. Two units whose next word is an `INIT` are in the same state after
any number of steps from it, whatever their registers held. -/
def Obligations.NothingSurvivesInit : Prop :=
  ∀ (s s' : State) (w : CmdWord) (seed : Word) (n : Nat),
    acceptedWord s = some w → decode w = .command (.init seed) → s.pins = s'.pins →
    core.run (n + 1) s = core.run (n + 1) s'

/-! ### Whole messages (spec/20, spec/45) -/

/-- 20 R57: the host's reads. Every byte is read exactly once, in increasing offset order, none at or beyond `len`; each read is what the
`BLOCK` or the `TAIL` carries. -/
def Obligations.HostReadsTheMessageOnce : Prop :=
  ∀ data : List Byte,
    ((hostReads data.length).map fun r => memRead data r.1 r.2).reduceOption.flatten = data ∧
    (∀ r ∈ hostReads data.length, r.1 + r.2 ≤ data.length ∧ (memRead data r.1 r.2).isSome = true) ∧
    (∀ i < data.length / 4, ∃ b0 b1 b2 b3, memRead data (4 * i) 4 = some [b0, b1, b2, b3] ∧
      (driveCommands 0 data)[i + 1]? = some (.block b0 b1 b2 b3)) ∧
    (∃ bs, memRead data (4 * (data.length / 4)) (data.length % 4) = some bs ∧
      (driveCommands 0 data)[data.length / 4 + 1]? = some (.tail bs))

/-- A run of the machine over presented words is `run` of 45 R153, `accept` folded from the left. -/
def Obligations.RunIsTheFoldOfSteps : Prop :=
  (∀ (s : State) (ws : List CmdWord), core.run ws.length (s.presenting ws) = runWords ws s) ∧
  (∀ (s : State) (ps : List Pins), core.run ps.length { s with pins := ps ++ s.pins } = runPins ps s)

/-- 42 R122: the block loop as a whole. After `INIT` and the blocks of a message `H` is the fold of the block round over the blocks in
order, it depends on the seed and the first `4 * nblocks` bytes only, and `LEN = (4 * nblocks) mod 2^32`. -/
def Obligations.BlockLoop : Prop :=
  (∀ (s : State) (seed : Word) (data : List Byte),
    runWords ((Instr.init seed :: blockCommands data).map encode) s = .next
      { h := (List.range (data.length / 4)).foldl
          (fun h i => blockRound h (blockValue (byteAt data (4 * i)) (byteAt data (4 * i + 1))
            (byteAt data (4 * i + 2)) (byteAt data (4 * i + 3)))) seed
        len := BitVec.ofNat 32 (4 * (data.length / 4)), phase := .absorb, errcode := .none, pins := s.pins }) ∧
  (∀ (s : State) (seed : Word) (data data' : List Byte), data.length / 4 = data'.length / 4 →
    data.take (4 * (data.length / 4)) = data'.take (4 * (data'.length / 4)) →
    runWords ((Instr.init seed :: blockCommands data).map encode) s =
      runWords ((Instr.init seed :: blockCommands data').map encode) s)

/-- 45 R157: the unit computes the hash function. From every state, with the words of `drive(seed, data)` or of `drive_short(seed, data)`
presented, the machine ends with `hash(seed, data)` on the result port. -/
def Obligations.UnitComputesTheHash : Prop :=
  ∀ (s : State) (seed : Word) (data : List Byte),
    (∃ t, core.run (drive seed data).length (s.presenting (drive seed data)) = .next t ∧
      result t = some (hashFn seed data) ∧ t.pins = s.pins) ∧
    (∃ t, core.run (driveShort seed data).length (s.presenting (driveShort seed data)) = .next t ∧
      result t = some (hashFn seed data) ∧ t.pins = s.pins)

/-- 45 R158: every result is the hash of one message. If a run with an `INIT` in it ends in `DONE`, its words from the last `INIT` on are
`INIT seed`, blocks, at most one tail, `FINAL`, and the result is the hash, under that seed, of the bytes of the blocks followed by the
tail's. A run without an `INIT`, from `IDLE` or `FAULT`, does not end in `DONE`. -/
def Obligations.EveryResultIsAHash : Prop :=
  (∀ (s t : State) (ws : List CmdWord), (∃ w ∈ ws, ∃ seed, decode w = .command (.init seed)) →
    runWords ws s = .next t → t.phase = .done →
    ∃ (before : List CmdWord) (seed : Word) (blocks : List (Byte × Byte × Byte × Byte)) (rest : Option (List Byte))
      (after : List CmdWord), ws = before ++ after ∧ (∀ bs ∈ rest, bs.length ≤ 3) ∧
      after.map decode = [.command (.init seed)]
        ++ blocks.map (fun b => .command (.block b.1 b.2.1 b.2.2.1 b.2.2.2))
        ++ rest.toList.map (fun bs => .command (.tail bs)) ++ [.command .final] ∧
      result t = some (hashFn seed (blocks.flatMap (fun b => [b.1, b.2.1, b.2.2.1, b.2.2.2]) ++ rest.getD []))) ∧
  (∀ (s t : State) (ws : List CmdWord), (∀ w ∈ ws, ∀ seed, decode w ≠ .command (.init seed)) →
    s.phase = .idle ∨ s.phase = .fault → runWords ws s = .next t → t.phase ≠ .done)

/-- 45 R160: hashing never faults. From every state, after each of the words of `drive(seed, data)` the unit is not in `FAULT`, and after
the last it is in `DONE`. -/
def Obligations.HashingNeverFaults : Prop :=
  ∀ (s : State) (seed : Word) (data : List Byte) (k : Nat), 1 ≤ k → k ≤ (drive seed data).length →
    ∃ t, core.run k (s.presenting (drive seed data)) = .next t ∧ t.phase ≠ .fault ∧
      (k = (drive seed data).length → t.phase = .done)

/-- 45 R161: the empty message. -/
def Obligations.EmptyMessage : Prop :=
  (∀ seed, hashFn seed [] = fmix seed 0) ∧ hashFn 0 [] = 0x00000000

/-- 45 R162: seed sensitivity. For a fixed message the hash is a bijection of the seed. -/
def Obligations.SeedSensitivity : Prop :=
  hashFn 1 [] = 0x514E28B7 ∧ hashFn 0 [] = 0 ∧ ∀ data, Function.Bijective fun seed => hashFn seed data

/-! ### The handshake (spec/70), for every choice of latencies -/

/-- 70 R194: acceptance. A word is accepted exactly when `cmd_valid = 1`, `cmd_ready = 1` and `rst = 0`; what is presented while
`cmd_ready = 0` has no effect; with no acceptance and nothing in flight nothing changes. -/
def Obligations.AcceptanceNeedsReady : Prop :=
  ∀ (lat : Latency) (p : Pins) (c : CycleState),
    (cycleAccepts p c = true ↔ p.cmdValid = true ∧ cycleReady p c = true ∧ p.rst = false) ∧
    (∀ p' : Pins, p.rst = false → p'.rst = false → cycleReady p c = false → clock lat p c = clock lat p' c) ∧
    (p.rst = false → cycleReady p c = true → p.cmdValid = false → clock lat p c = .next c)

/-- 70 R195, R201: after an acceptance `cmd_ready` is 0, and the ports show the state before the command (log entry 7), for the command's
busy cycles, whatever the host presents; then the step's new state is in the registers, whole, and the unit is ready. -/
def Obligations.CommandsCompleteWhole : Prop :=
  ∀ (lat : Latency) (p : Pins) (ps : List Pins) (c : CycleState),
    cycleAccepts p c = true → (∀ q ∈ ps, q.rst = false) → ps.length ≤ busyCycles lat p.cmdWord →
    ∃ c', clockRun lat (p :: ps) c = .next c' ∧
      (ps.length < busyCycles lat p.cmdWord → c'.unit = c.unit ∧ ∀ q, cycleReady q c' = false) ∧
      (ps.length = busyCycles lat p.cmdWord →
        accept p.cmdWord c.unit = .next c'.unit ∧ ∀ q, cycleReady q c' = !q.rst)

/-- 70 R190, R191: reset in any cycle, a command in flight or not, leaves the reset state and nothing in flight. -/
def Obligations.ResetAbandonsTheCommand : Prop :=
  ∀ (lat : Latency) (p : Pins) (c : CycleState), p.rst = true →
    cycleReady p c = false ∧ cycleAccepts p c = false ∧
    clock lat p c = .next
      { unit := { h := 0, len := 0, phase := .idle, errcode := .none, pins := c.unit.pins }, inFlight := none }

/-- 93 U8: the cycle-level machine goes through the same architectural states as `step`, for every choice of latencies and every behaviour of
the pins. Whenever no command is in flight, the unit is in the state the transaction-level run over the resets and acceptances so far
gives; while one is, that run's state is the one the command will leave. -/
def Obligations.CyclesRefineTransactions : Prop :=
  ∀ (lat : Latency) (ps : List Pins) (s : State),
    ∃ c t, clockRun lat ps { unit := s, inFlight := none } = .next c ∧
      core.run (transactions lat ps { unit := s, inFlight := none }).length
        { s with pins := transactions lat ps { unit := s, inFlight := none } ++ s.pins } = .next t ∧
      (c.inFlight = none → t = c.unit) ∧
      (∀ f, c.inFlight = some f → accept f.word c.unit = .next t)

/-- Progress (from 70 sections 3 and 4, 45 section 3; over the cycle-level machine, log entry 7). After every acceptance the unit is ready again after finitely many cycles without any action of the host; so a
host that obeys the driver contract (45 R156), with either command sequence and at any pace (finite pauses before each word and before
the read: log entry 11), reads `hash(seed, data)` in finite time, for every latencies and from every state of the unit, a command in
flight or not. -/
def Obligations.DriverObtainsTheHash : Prop :=
  (∀ (lat : Latency) (p : Pins) (c : CycleState), cycleAccepts p c = true →
    ∃ n c', clockRun lat (p :: List.replicate n quiet) c = .next c' ∧ cycleReady quiet c' = true) ∧
  (∀ (lat : Latency) (c : CycleState) (seed : Word) (data : List Byte) (words : List (Nat × CmdWord)) (readAfter : Nat),
    words.map Prod.snd = drive seed data ∨ words.map Prod.snd = driveShort seed data →
    ∃ n c', hostRun lat n { toSend := words, readAfter := readAfter, cycle := c, got := none } =
      .next { toSend := [], readAfter := 0, cycle := c', got := some (hashFn seed data) })

/-! ### Several units, and the textual syntax -/

/-- 60 R184: units share nothing. Whatever the order in which several units step, each ends in the state its own steps alone give. -/
def Obligations.UnitsAreIndependent : Prop :=
  ∀ (order : List Nat) (us : List State),
    ∃ us', platformRun order us = .next us' ∧ us'.length = us.length ∧
      ∀ (k : Nat) (u : State), us[k]? = some u →
        ∃ u', us'[k]? = some u' ∧ core.run (order.count k) u = .next u'

/-- 30 R77: the assembler inverts the disassembler on every word, in text too; a word the mnemonic forms spell is printed in its form. -/
def Obligations.DisassemblyReadsBack : Prop :=
  (∀ w : CmdWord, assembleLine (disassemble w) = w) ∧
  (∀ i : Instr, i.wf = true → disassemble (encode i) = mnemonicForm i) ∧
  (∀ w : CmdWord, assembleText (renderLine (disassemble w)) = some [w])
end

