-- ==== Sys2Proof/Laws/State.lean ====
section
/-! SUPPORT. One lemma per field per update of State. Each is true by rfl; the proofs split `s` first, so that simp rewrites
with the lemma instead of asking the kernel to see through the update and through the datapath function written. -/

namespace Sys2Proof.Machine

/-! ### setH -/

@[simp] theorem State.setH_h (s : State) (v : Word) : (s.setH v).h = v := by cases s; rfl
@[simp] theorem State.setH_len (s : State) (v : Word) : (s.setH v).len = s.len := by cases s; rfl
@[simp] theorem State.setH_phase (s : State) (v : Word) : (s.setH v).phase = s.phase := by cases s; rfl
@[simp] theorem State.setH_errcode (s : State) (v : Word) : (s.setH v).errcode = s.errcode := by cases s; rfl
@[simp] theorem State.setH_pins (s : State) (v : Word) : (s.setH v).pins = s.pins := by cases s; rfl

/-! ### setLen -/

@[simp] theorem State.setLen_h (s : State) (v : Word) : (s.setLen v).h = s.h := by cases s; rfl
@[simp] theorem State.setLen_len (s : State) (v : Word) : (s.setLen v).len = v := by cases s; rfl
@[simp] theorem State.setLen_phase (s : State) (v : Word) : (s.setLen v).phase = s.phase := by cases s; rfl
@[simp] theorem State.setLen_errcode (s : State) (v : Word) : (s.setLen v).errcode = s.errcode := by cases s; rfl
@[simp] theorem State.setLen_pins (s : State) (v : Word) : (s.setLen v).pins = s.pins := by cases s; rfl

/-! ### setPhase -/

@[simp] theorem State.setPhase_h (s : State) (p : Phase) : (s.setPhase p).h = s.h := by cases s; rfl
@[simp] theorem State.setPhase_len (s : State) (p : Phase) : (s.setPhase p).len = s.len := by cases s; rfl
@[simp] theorem State.setPhase_phase (s : State) (p : Phase) : (s.setPhase p).phase = p := by cases s; rfl
@[simp] theorem State.setPhase_errcode (s : State) (p : Phase) : (s.setPhase p).errcode = s.errcode := by cases s; rfl
@[simp] theorem State.setPhase_pins (s : State) (p : Phase) : (s.setPhase p).pins = s.pins := by cases s; rfl

/-! ### setErrCode -/

@[simp] theorem State.setErrCode_h (s : State) (c : ErrCode) : (s.setErrCode c).h = s.h := by cases s; rfl
@[simp] theorem State.setErrCode_len (s : State) (c : ErrCode) : (s.setErrCode c).len = s.len := by cases s; rfl
@[simp] theorem State.setErrCode_phase (s : State) (c : ErrCode) : (s.setErrCode c).phase = s.phase := by cases s; rfl
@[simp] theorem State.setErrCode_errcode (s : State) (c : ErrCode) : (s.setErrCode c).errcode = c := by cases s; rfl
@[simp] theorem State.setErrCode_pins (s : State) (c : ErrCode) : (s.setErrCode c).pins = s.pins := by cases s; rfl

/-! ### setPins -/

@[simp] theorem State.setPins_h (s : State) (ps : List Pins) : (s.setPins ps).h = s.h := by cases s; rfl
@[simp] theorem State.setPins_len (s : State) (ps : List Pins) : (s.setPins ps).len = s.len := by cases s; rfl
@[simp] theorem State.setPins_phase (s : State) (ps : List Pins) : (s.setPins ps).phase = s.phase := by cases s; rfl
@[simp] theorem State.setPins_errcode (s : State) (ps : List Pins) : (s.setPins ps).errcode = s.errcode := by cases s; rfl
@[simp] theorem State.setPins_pins (s : State) (ps : List Pins) : (s.setPins ps).pins = ps := by cases s; rfl

/-! ### raiseFault -/

@[simp] theorem raiseFault_h (c : ErrCode) (s : State) : (raiseFault c s).h = s.h := by cases s; rfl
@[simp] theorem raiseFault_len (c : ErrCode) (s : State) : (raiseFault c s).len = s.len := by cases s; rfl
@[simp] theorem raiseFault_phase (c : ErrCode) (s : State) : (raiseFault c s).phase = .fault := by cases s; rfl
@[simp] theorem raiseFault_errcode (c : ErrCode) (s : State) : (raiseFault c s).errcode = c := by cases s; rfl
@[simp] theorem raiseFault_pins (c : ErrCode) (s : State) : (raiseFault c s).pins = s.pins := by cases s; rfl

/-! ### startOperation -/

@[simp] theorem startOperation_h (seed : Word) (s : State) : (startOperation seed s).h = seed := by cases s; rfl
@[simp] theorem startOperation_len (seed : Word) (s : State) : (startOperation seed s).len = 0 := by cases s; rfl
@[simp] theorem startOperation_phase (seed : Word) (s : State) : (startOperation seed s).phase = .absorb := by cases s; rfl
@[simp] theorem startOperation_errcode (seed : Word) (s : State) : (startOperation seed s).errcode = .none := by cases s; rfl
@[simp] theorem startOperation_pins (seed : Word) (s : State) : (startOperation seed s).pins = s.pins := by cases s; rfl

/-! ### resetUnit -/

@[simp] theorem resetUnit_h (s : State) : (resetUnit s).h = 0 := by cases s; rfl
@[simp] theorem resetUnit_len (s : State) : (resetUnit s).len = 0 := by cases s; rfl
@[simp] theorem resetUnit_phase (s : State) : (resetUnit s).phase = .idle := by cases s; rfl
@[simp] theorem resetUnit_errcode (s : State) : (resetUnit s).errcode = .none := by cases s; rfl
@[simp] theorem resetUnit_pins (s : State) : (resetUnit s).pins = s.pins := by cases s; rfl

end Sys2Proof.Machine
end

