-- ==== Sys2Proof/Laws/Commands.lean ====
section
/-! SUPPORT. What the commands' effects leave, field by field, and what every shared operation, every command, every accepted
word and every step can do, said once. -/

namespace Sys2Proof.Machine

/-! ### The effects, field by field -/

@[simp] theorem absorbBlock_h (k : Word) (s : State) : (absorbBlock k s).h = blockRound s.h k := by rw [absorbBlock, State.setPhase_h, State.setLen_h, State.setH_h]
@[simp] theorem absorbBlock_len (k : Word) (s : State) : (absorbBlock k s).len = add32 s.len 4 := by rw [absorbBlock, State.setPhase_len, State.setLen_len]
@[simp] theorem absorbBlock_phase (k : Word) (s : State) : (absorbBlock k s).phase = .absorb := by rw [absorbBlock, State.setPhase_phase]
@[simp] theorem absorbBlock_errcode (k : Word) (s : State) : (absorbBlock k s).errcode = s.errcode := by rw [absorbBlock, State.setPhase_errcode, State.setLen_errcode, State.setH_errcode]
@[simp] theorem absorbBlock_pins (k : Word) (s : State) : (absorbBlock k s).pins = s.pins := by rw [absorbBlock, State.setPhase_pins, State.setLen_pins, State.setH_pins]

@[simp] theorem absorbTail_h (bs : List Byte) (s : State) : (absorbTail bs s).h = tailRound s.h (tailAssemble bs) := by rw [absorbTail, State.setPhase_h, State.setLen_h, State.setH_h]
@[simp] theorem absorbTail_len (bs : List Byte) (s : State) : (absorbTail bs s).len = add32 s.len (tailCount bs) := by rw [absorbTail, State.setPhase_len, State.setLen_len]
@[simp] theorem absorbTail_phase (bs : List Byte) (s : State) : (absorbTail bs s).phase = .tailed := by rw [absorbTail, State.setPhase_phase]
@[simp] theorem absorbTail_errcode (bs : List Byte) (s : State) : (absorbTail bs s).errcode = s.errcode := by rw [absorbTail, State.setPhase_errcode, State.setLen_errcode, State.setH_errcode]
@[simp] theorem absorbTail_pins (bs : List Byte) (s : State) : (absorbTail bs s).pins = s.pins := by rw [absorbTail, State.setPhase_pins, State.setLen_pins, State.setH_pins]

@[simp] theorem finalize_h (s : State) : (finalize s).h = fmix s.h s.len := by rw [finalize, State.setPhase_h, State.setH_h]
@[simp] theorem finalize_len (s : State) : (finalize s).len = s.len := by rw [finalize, State.setPhase_len, State.setH_len]
@[simp] theorem finalize_phase (s : State) : (finalize s).phase = .done := by rw [finalize, State.setPhase_phase]
@[simp] theorem finalize_errcode (s : State) : (finalize s).errcode = s.errcode := by rw [finalize, State.setPhase_errcode, State.setH_errcode]
@[simp] theorem finalize_pins (s : State) : (finalize s).pins = s.pins := by rw [finalize, State.setPhase_pins, State.setH_pins]

/-! ### Shared operations -/

@[simp] theorem andThen_next {σ τ : Type} (s : σ) (f : σ → Host.Outcome τ Fault Refusal) :
    andThen (.next s) f = f s := rfl

/-- `drops` is true of `FAULT` and of the phases 5 to 7, those that are not 0 to 3. -/
theorem drops_eq_false_iff (p : Phase) :
    drops p = false ↔ p = .idle ∨ p = .absorb ∨ p = .tailed ∨ p = .done := by
  cases p <;> simp [drops]

/-- The state a command other than `INIT` leaves. -/
def afterSequenced (i : Instr) (effect : State → State) (s : State) : State :=
  if drops s.phase then s
  else if legal s.phase (.command i) then effect s
  else raiseFault .outOfSequence s

theorem sequenced_eq (i : Instr) (effect : State → State) (s : State) :
    sequenced i effect s = .next (afterSequenced i effect s) := by
  simp only [sequenced, afterSequenced]
  split
  · rfl
  · split <;> rfl

/-- Everything a command other than `INIT` can do: be dropped, have its effect, or fault. -/
theorem sequenced_cases {i : Instr} {effect : State → State} {s t : State} (h : sequenced i effect s = .next t) :
    (drops s.phase = true ∧ t = s) ∨
    (drops s.phase = false ∧ legal s.phase (.command i) = true ∧ t = effect s) ∨
    (drops s.phase = false ∧ legal s.phase (.command i) = false ∧ t = raiseFault .outOfSequence s) := by
  unfold sequenced at h
  split at h
  · exact .inl ⟨‹_›, (Host.Outcome.next.inj h).symm⟩
  · rename_i hd
    split at h
    · exact .inr (.inl ⟨by simpa using hd, ‹_›, (Host.Outcome.next.inj h).symm⟩)
    · exact .inr (.inr ⟨by simpa using hd, by simp_all, (Host.Outcome.next.inj h).symm⟩)

theorem sequenced_of_drops {i : Instr} {effect : State → State} {s : State} (hd : drops s.phase = true) :
    sequenced i effect s = .next s := by
  simp [sequenced, hd]

theorem sequenced_of_legal {i : Instr} {effect : State → State} {s : State} (hd : drops s.phase = false)
    (hl : legal s.phase (.command i) = true) : sequenced i effect s = .next (effect s) := by
  simp [sequenced, hd, hl]

theorem sequenced_of_illegal {i : Instr} {effect : State → State} {s : State} (hd : drops s.phase = false)
    (hl : legal s.phase (.command i) = false) : sequenced i effect s = .next (raiseFault .outOfSequence s) := by
  simp [sequenced, hd, hl]

/-- Everything a reserved word can do. -/
theorem acceptReserved_cases {s t : State} (h : acceptReserved s = .next t) :
    (drops s.phase = true ∧ t = s) ∨ (drops s.phase = false ∧ t = raiseFault .reservedEncoding s) := by
  unfold acceptReserved at h
  split at h
  · exact .inl ⟨‹_›, (Host.Outcome.next.inj h).symm⟩
  · exact .inr ⟨by simp_all, (Host.Outcome.next.inj h).symm⟩

/-! ### Commands -/

/-- The effect of a command that is in sequence. -/
def effectOf : Instr → State → State
  | .init seed => startOperation seed
  | .block b0 b1 b2 b3 => absorbBlock (blockValue b0 b1 b2 b3)
  | .tail bs => absorbTail bs
  | .final => finalize

theorem exec_init (seed : Word) (s : State) : exec (.init seed) s = .next (startOperation seed s) := rfl

/-- A command other than `INIT` goes through the sequencing test. -/
theorem exec_of_not_init {i : Instr} (hi : ∀ seed, i ≠ .init seed) (s : State) :
    exec i s = sequenced i (effectOf i) s := by
  cases i with
  | init seed => exact absurd rfl (hi seed)
  | block b0 b1 b2 b3 => rfl
  | tail bs => rfl
  | final => rfl

/-- Everything a command can do. -/
theorem exec_cases {i : Instr} {s t : State} (h : exec i s = .next t) :
    (∃ seed, i = .init seed ∧ t = startOperation seed s) ∨
    ((∀ seed, i ≠ .init seed) ∧ drops s.phase = true ∧ t = s) ∨
    ((∀ seed, i ≠ .init seed) ∧ drops s.phase = false ∧ legal s.phase (.command i) = true ∧ t = effectOf i s) ∨
    ((∀ seed, i ≠ .init seed) ∧ drops s.phase = false ∧ legal s.phase (.command i) = false ∧
      t = raiseFault .outOfSequence s) := by
  cases i with
  | init seed => exact .inl ⟨seed, rfl, (Host.Outcome.next.inj h).symm⟩
  | block b0 b1 b2 b3 => simpa [effectOf] using sequenced_cases h
  | tail bs => simpa [effectOf] using sequenced_cases h
  | final => simpa [effectOf] using sequenced_cases h

/-! ### Accepted words, samples of the pins, steps -/

theorem accept_of_command {w : CmdWord} {i : Instr} (h : decode w = .command i) (s : State) : accept w s = exec i s := by
  simp only [accept, h]

theorem accept_of_reserved {w : CmdWord} {k : ReservedKind} (h : decode w = .reserved k) (s : State) :
    accept w s = acceptReserved s := by
  simp only [accept, h]

/-- Everything an accepted word can do. -/
theorem accept_cases {w : CmdWord} {s t : State} (h : accept w s = .next t) :
    (∃ seed, decode w = .command (.init seed) ∧ t = startOperation seed s) ∨
    ((∀ seed, decode w ≠ .command (.init seed)) ∧ drops s.phase = true ∧ t = s) ∨
    (∃ i, decode w = .command i ∧ (∀ seed, i ≠ .init seed) ∧ drops s.phase = false ∧
      legal s.phase (.command i) = true ∧ t = effectOf i s) ∨
    (∃ i, decode w = .command i ∧ (∀ seed, i ≠ .init seed) ∧ drops s.phase = false ∧
      legal s.phase (.command i) = false ∧ t = raiseFault .outOfSequence s) ∨
    (∃ k, decode w = .reserved k ∧ drops s.phase = false ∧ t = raiseFault .reservedEncoding s) := by
  cases hd : decode w with
  | command i =>
    rw [accept_of_command hd] at h
    rcases exec_cases h with ⟨seed, rfl, rfl⟩ | ⟨hi, hp, rfl⟩ | ⟨hi, hp, hl, rfl⟩ | ⟨hi, hp, hl, rfl⟩
    · exact .inl ⟨seed, rfl, rfl⟩
    · exact .inr (.inl ⟨fun seed e => hi seed (Decoded.command.inj e), hp, rfl⟩)
    · exact .inr (.inr (.inl ⟨i, rfl, hi, hp, hl, rfl⟩))
    · exact .inr (.inr (.inr (.inl ⟨i, rfl, hi, hp, hl, rfl⟩)))
  | reserved k =>
    rw [accept_of_reserved hd] at h
    rcases acceptReserved_cases h with ⟨hp, rfl⟩ | ⟨hp, rfl⟩
    · exact .inr (.inl ⟨by simp, hp, rfl⟩)
    · exact .inr (.inr (.inr (.inr ⟨k, rfl, hp, rfl⟩)))

/-- Everything a sample of the pins can do. -/
theorem samplePins_cases {p : Pins} {s t : State} (h : samplePins p s = .next t) :
    (p.rst = true ∧ t = resetUnit s) ∨ (p.rst = false ∧ p.cmdValid = true ∧ accept p.cmdWord s = .next t) ∨
    (p.rst = false ∧ p.cmdValid = false ∧ t = s) := by
  unfold samplePins at h
  split at h
  · exact .inl ⟨‹_›, (Host.Outcome.next.inj h).symm⟩
  · rename_i hr
    split at h
    · exact .inr (.inl ⟨by simpa using hr, ‹_›, h⟩)
    · exact .inr (.inr ⟨by simpa using hr, by simp_all, (Host.Outcome.next.inj h).symm⟩)

@[simp] theorem samplePins_present (w : CmdWord) (s : State) : samplePins (present w) s = accept w s := rfl

@[simp] theorem samplePins_quiet (s : State) : samplePins quiet s = .next s := rfl

theorem step_of_nil {s : State} (h : s.pins = []) : step s = .next s := by
  simp only [step, h]

theorem step_of_cons {s : State} {p : Pins} {ps : List Pins} (h : s.pins = p :: ps) :
    step s = samplePins p (s.setPins ps) := by
  simp only [step, h]

end Sys2Proof.Machine
end

