-- ==== Sys2Proof/Laws/Cycle.lean ====
section
/-! SUPPORT. What the host and the clock of the cycle-level machine can do. -/

namespace Sys2Proof.Laws

open Sys2Proof.Machine

/-- The host never asserts `rst`. -/
@[simp] theorem hostPins_rst (ws : List (Nat × CmdWord)) : (hostPins ws).rst = false := by
  rcases ws with _ | ⟨⟨_ | _, _⟩, _⟩ <;> rfl

/-- Without an acceptance the host's words are the same; only a pause may be shorter. -/
@[simp] theorem hostNext_words (ws : List (Nat × CmdWord)) : (hostNext false ws).map Prod.snd = ws.map Prod.snd := by
  rcases ws with _ | ⟨⟨_ | _, _⟩, _⟩ <;> simp [hostNext]

/-- A host with words to deliver does not read. -/
@[simp] theorem hostSeesResult_cons (p : Nat × CmdWord) (ws : List (Nat × CmdWord)) (r : Nat) (c : CycleState) (g : Option Word) :
    hostSeesResult { toSend := p :: ws, readAfter := r, cycle := c, got := g } = false := rfl

/-- When a word is accepted (70 R194). -/
theorem cycleAccepts_iff (p : Pins) (c : CycleState) :
    cycleAccepts p c = true ↔ p.cmdValid = true ∧ p.rst = false ∧ c.inFlight = none := by
  simp [cycleAccepts, cycleReady, cmdReady]

/-- The clock edge of an acceptance. -/
theorem clock_of_accepts {t : Latency} {p : Pins} {c : CycleState} (h : cycleAccepts p c = true) :
    clock t p c = advance p.cmdWord (busyCycles t p.cmdWord) c.unit := by
  obtain ⟨hv, hr, hf⟩ := (cycleAccepts_iff p c).mp h
  simp [clock, hv, hr, hf]

/-- The clock edge of a unit at work. -/
theorem clock_of_busy {t : Latency} {p : Pins} {u : State} {f : InFlight} (h : p.rst = false) :
    clock t p { unit := u, inFlight := some f } = advance f.word f.left u := by simp [clock, h]

end Sys2Proof.Laws
end

