-- ==== Sys2Proof/Laws/Decode.lean ====
section
/-! SUPPORT. The fields of a packed word, the bits of an assembled value, and the decoder row by row. -/

namespace Sys2Proof

/-! ### Fields of a packed word -/

theorem getLsbD_pack (op cnt : BitVec 2) (data : Word) (i : Nat) :
    (pack op cnt data).getLsbD i =
      if i < 32 then data.getLsbD i else if i < 34 then cnt.getLsbD (i - 32) else op.getLsbD (i - 34) := by
  simp only [pack, BitVec.getLsbD_append]
  by_cases h : i < 32
  · simp [h]
  · by_cases h' : i < 34
    · simp [h, h', show i - 32 < 2 by omega]
    · simp [h, h', show ¬ i - 32 < 2 by omega, show i - 32 - 2 = i - 34 by omega]

@[simp] theorem opField_pack (op cnt : BitVec 2) (data : Word) : opField (pack op cnt data) = op := by
  ext i hi
  simp [opField, getLsbD_pack, BitVec.getElem_extractLsb', BitVec.getLsbD_eq_getElem hi, show ¬ 34 + i < 32 by omega, show ¬ 34 + i < 34 by omega]

@[simp] theorem cntField_pack (op cnt : BitVec 2) (data : Word) : cntField (pack op cnt data) = cnt := by
  ext i hi
  simp [cntField, getLsbD_pack, BitVec.getElem_extractLsb', BitVec.getLsbD_eq_getElem hi, show ¬ 32 + i < 32 by omega, show 32 + i < 34 by omega]

@[simp] theorem dataField_pack (op cnt : BitVec 2) (data : Word) : dataField (pack op cnt data) = data := by
  ext i hi
  simp [dataField, getLsbD_pack, BitVec.getElem_extractLsb', hi]

/-- A word is its three fields. -/
theorem pack_fields (w : CmdWord) : pack (opField w) (cntField w) (dataField w) = w := by
  apply BitVec.eq_of_getLsbD_eq
  intro i hi
  rw [getLsbD_pack]
  split
  · simp [dataField, *]
  · split
    · simp [cntField, show i - 32 < 2 by omega, show 32 + (i - 32) = i by omega]
    · simp [opField, show i - 34 < 2 by omega, show 34 + (i - 34) = i by omega]

theorem lane0_eq (w : CmdWord) : lane0 w = (dataField w).extractLsb' 0 8 := by
  ext i hi
  simp [lane0, dataField, BitVec.getElem_extractLsb']

theorem lane1_eq (w : CmdWord) : lane1 w = (dataField w).extractLsb' 8 8 := by
  ext i hi
  simp [lane1, dataField, BitVec.getElem_extractLsb']

theorem lane2_eq (w : CmdWord) : lane2 w = (dataField w).extractLsb' 16 8 := by
  ext i hi
  simp [lane2, dataField, BitVec.getElem_extractLsb']

theorem lane3_eq (w : CmdWord) : lane3 w = (dataField w).extractLsb' 24 8 := by
  ext i hi
  simp [lane3, dataField, BitVec.getElem_extractLsb']

/-! ### Little-endian assembly -/

@[simp] theorem le_nil : le [] = 0#32 := rfl

theorem le_cons (b : Byte) (bs : List Byte) : le (b :: bs) = b.setWidth 32 ||| (le bs <<< 8) := rfl

/-- Bit `i` of an assembled value is bit `i % 8` of byte `i / 8`. -/
theorem getLsbD_le (bs : List Byte) (i : Nat) (hi : i < 32) :
    (le bs).getLsbD i = (bs.getD (i / 8) 0).getLsbD (i % 8) := by
  induction bs generalizing i with
  | nil => simp [le]
  | cons b bs ih =>
    simp only [le_cons, BitVec.getLsbD_or, BitVec.getLsbD_setWidth, BitVec.getLsbD_shiftLeft, hi, decide_true,
      Bool.true_and]
    by_cases h : i < 8
    · simp [h, show i / 8 = 0 by omega, show i % 8 = i by omega]
    · rw [ih (i - 8) (by omega), show i / 8 = (i - 8) / 8 + 1 by omega, show i % 8 = (i - 8) % 8 by omega]
      simp [h, BitVec.getLsbD_of_ge b i (by omega)]

/-- Four bytes assembled are their concatenation. -/
theorem le_four (b0 b1 b2 b3 : Byte) : le [b0, b1, b2, b3] = b3 ++ b2 ++ b1 ++ b0 := by
  apply BitVec.eq_of_getLsbD_eq
  intro i hi
  rw [getLsbD_le _ _ hi]
  simp only [BitVec.getLsbD_append]
  by_cases h0 : i < 8
  · simp [h0, show i / 8 = 0 by omega, show i % 8 = i by omega]
  · by_cases h1 : i < 16
    · simp [h0, show i - 8 < 8 by omega, show i / 8 = 1 by omega, show i % 8 = i - 8 by omega]
    · by_cases h2 : i < 24
      · simp [h0, show ¬ i - 8 < 8 by omega, show i - 8 - 8 < 8 by omega, show i / 8 = 2 by omega,
          show i % 8 = i - 8 - 8 by omega]
      · simp [h0, show ¬ i - 8 < 8 by omega, show ¬ i - 8 - 8 < 8 by omega, show i / 8 = 3 by omega,
          show i % 8 = i - 8 - 8 - 8 by omega]

/-- A block's word is its opcode over its block value. -/
theorem encode_block (b0 b1 b2 b3 : Byte) : encode (.block b0 b1 b2 b3) = pack 0b01#2 0b00#2 (le [b0, b1, b2, b3]) := by
  rw [le_four]
  apply BitVec.eq_of_getLsbD_eq
  intro i hi
  rw [getLsbD_pack]
  simp only [encode, BitVec.getLsbD_append]
  by_cases h0 : i < 8
  · simp [h0, show i < 32 by omega]
  · by_cases h1 : i < 16
    · simp [h0, show i < 32 by omega, show i - 8 < 8 by omega]
    · by_cases h2 : i < 24
      · simp [h0, show i < 32 by omega, show ¬ i - 8 < 8 by omega, show i - 8 - 8 < 8 by omega]
      · by_cases h3 : i < 32
        · simp [h0, h3, show ¬ i - 8 < 8 by omega, show ¬ i - 8 - 8 < 8 by omega, show i - 8 - 8 - 8 < 8 by omega]
        · by_cases h4 : i < 34
          · simp [h0, h3, h4, show ¬ i - 8 < 8 by omega, show ¬ i - 8 - 8 < 8 by omega,
              show ¬ i - 8 - 8 - 8 < 8 by omega, show i - 8 - 8 - 8 - 8 < 2 by omega]
          · simp [h0, h3, h4, show ¬ i - 8 < 8 by omega, show ¬ i - 8 - 8 < 8 by omega,
              show ¬ i - 8 - 8 - 8 < 8 by omega, show ¬ i - 8 - 8 - 8 - 8 < 2 by omega,
              show i - 8 - 8 - 8 - 8 - 2 = i - 34 by omega]

/-- Byte `j` of an assembled value. -/
theorem extractLsb'_le (bs : List Byte) (j : Nat) (hj : j < 4) : (le bs).extractLsb' (8 * j) 8 = bs.getD j 0 := by
  apply BitVec.eq_of_getLsbD_eq
  intro i hi
  rw [BitVec.getLsbD_extractLsb', getLsbD_le _ _ (by omega), show (8 * j + i) / 8 = j by omega,
    show (8 * j + i) % 8 = i by omega]
  simp [hi]

/-! ### The decoder, row by row -/

theorem toNat_two_cases (x : BitVec 2) : x = 0#2 ∨ x = 1#2 ∨ x = 2#2 ∨ x = 3#2 := by
  revert x; decide

theorem decode_of_op_zero {w : CmdWord} (h : opField w = 0#2) :
    decode w = if cntField w = 0#2 then .command (.init (dataField w)) else .reserved .initWithCount := by
  simp [decode, h]

theorem decode_of_op_one {w : CmdWord} (h : opField w = 1#2) :
    decode w = if cntField w = 0#2 then .command (.block (lane0 w) (lane1 w) (lane2 w) (lane3 w))
      else .reserved .blockWithCount := by
  simp [decode, h]

theorem decode_of_op_two {w : CmdWord} (h : opField w = 2#2) :
    decode w = .command (.tail ([lane0 w, lane1 w, lane2 w].take (cntField w).toNat)) := by
  simp [decode, h]

theorem decode_of_op_three {w : CmdWord} (h : opField w = 3#2) :
    decode w = if cntField w = 0#2 ∧ dataField w = 0#32 then .command .final else .reserved .finalWithOperand := by
  simp [decode, h]

/-- A decoded command is well formed. -/
theorem decode_wf {w : CmdWord} {i : Instr} (h : decode w = .command i) : i.wf = true := by
  rcases toNat_two_cases (opField w) with ho | ho | ho | ho
  · rw [decode_of_op_zero ho] at h
    split at h
    · cases h; rfl
    · cases h
  · rw [decode_of_op_one ho] at h
    split at h
    · cases h; rfl
    · cases h
  · rw [decode_of_op_two ho] at h
    cases h
    simp [Instr.wf]
  · rw [decode_of_op_three ho] at h
    split at h
    · cases h; rfl
    · cases h

end Sys2Proof
end

