-- ==== Sys2Proof/Laws/PerInstr.lean ====
section
/-! SUPPORT. Families of lemmas with one lemma per command. -/

namespace Sys2Proof.Laws

/-- Decoding the encoding of a well-formed command gives it back. -/
def RoundTrip.Statement (i : Instr) : Prop := i.wf = true → decode (encode i) = .command i

theorem RoundTrip.init (seed : Word) : RoundTrip.Statement (.init seed) := by
  intro _
  rw [encode, decode_of_op_zero (by simp)]
  simp

theorem RoundTrip.block (b0 b1 b2 b3 : Byte) : RoundTrip.Statement (.block b0 b1 b2 b3) := by
  intro _
  rw [encode_block, decode_of_op_one (by simp), if_pos (by simp)]
  simp only [lane0_eq, lane1_eq, lane2_eq, lane3_eq, dataField_pack]
  have h0 := extractLsb'_le [b0, b1, b2, b3] 0 (by omega)
  have h1 := extractLsb'_le [b0, b1, b2, b3] 1 (by omega)
  have h2 := extractLsb'_le [b0, b1, b2, b3] 2 (by omega)
  have h3 := extractLsb'_le [b0, b1, b2, b3] 3 (by omega)
  simp at h0 h1 h2 h3
  simp [h0, h1, h2, h3]

theorem RoundTrip.tail (bs : List Byte) : RoundTrip.Statement (.tail bs) := by
  intro hwf
  rw [encode, decode_of_op_two (by simp)]
  simp only [lane0_eq, lane1_eq, lane2_eq, dataField_pack, cntField_pack]
  have h0 := extractLsb'_le bs 0 (by omega)
  have h1 := extractLsb'_le bs 1 (by omega)
  have h2 := extractLsb'_le bs 2 (by omega)
  match bs, hwf with
  | [], _ => simp
  | [b0], _ => simp at h0; simp [h0]
  | [b0, b1], _ => simp at h0 h1; simp [h0, h1]
  | [b0, b1, b2], _ => simp at h0 h1 h2; simp [h0, h1, h2]
  | _ :: _ :: _ :: _ :: _, hwf => simp [Instr.wf] at hwf; omega

theorem RoundTrip.final : RoundTrip.Statement .final := by
  intro _
  rw [encode, decode_of_op_three (by simp)]
  simp

/-- The mask and the match of a command's row of the opcode map (30 R73). -/
def SelectedByRow.row : Instr → CmdWord × CmdWord
  | .init _ => (0xF00000000, 0x000000000)
  | .block _ _ _ _ => (0xF00000000, 0x400000000)
  | .tail _ => (0xC00000000, 0x800000000)
  | .final => (0xFFFFFFFFF, 0xC00000000)

/-- A command's encoding is selected by its row. -/
def SelectedByRow.Statement (i : Instr) : Prop := encode i &&& (SelectedByRow.row i).1 = (SelectedByRow.row i).2

/-- The top four bits of a word, alone. -/
theorem pack_and_top (op cnt : BitVec 2) (data : Word) : pack op cnt data &&& 0xF00000000 = pack op cnt 0#32 := by
  have hm : (0xF00000000 : CmdWord) = pack 3#2 3#2 0#32 := by decide
  rw [hm]
  apply BitVec.eq_of_getLsbD_eq
  intro i hi
  rw [BitVec.getLsbD_and, getLsbD_pack, getLsbD_pack, getLsbD_pack]
  have h3 : ∀ j < 2, (3#2).getLsbD j = true := by decide
  split
  · simp
  · split
    · rw [h3 _ (by omega), Bool.and_true]
    · rw [h3 _ (by omega), Bool.and_true]

/-- The top two bits of a word, alone. -/
theorem pack_and_op (op cnt : BitVec 2) (data : Word) : pack op cnt data &&& 0xC00000000 = pack op 0#2 0#32 := by
  have hm : (0xC00000000 : CmdWord) = pack 3#2 0#2 0#32 := by decide
  rw [hm]
  apply BitVec.eq_of_getLsbD_eq
  intro i hi
  rw [BitVec.getLsbD_and, getLsbD_pack, getLsbD_pack, getLsbD_pack]
  have h3 : ∀ j < 2, (3#2).getLsbD j = true := by decide
  split
  · simp
  · split
    · simp
    · rw [h3 _ (by omega), Bool.and_true]

theorem SelectedByRow.init (seed : Word) : SelectedByRow.Statement (.init seed) := by
  show pack _ _ _ &&& 0xF00000000 = 0x000000000
  rw [pack_and_top]; decide

theorem SelectedByRow.block (b0 b1 b2 b3 : Byte) : SelectedByRow.Statement (.block b0 b1 b2 b3) := by
  show encode _ &&& 0xF00000000 = 0x400000000
  rw [encode_block, pack_and_top]; decide

theorem SelectedByRow.tail (bs : List Byte) : SelectedByRow.Statement (.tail bs) := by
  show pack _ _ _ &&& 0xC00000000 = 0x800000000
  rw [pack_and_op]; decide

theorem SelectedByRow.final : SelectedByRow.Statement .final := by
  show encode .final &&& 0xFFFFFFFFF = 0xC00000000
  decide

end Sys2Proof.Laws
end

