-- ==== Sys2Proof/Tests/Slice0.lean ====
section
/-! SUPPORT. Tests: the well-formedness smoke test, words and single steps with the values of 95_test_vectors.md, and
for each statement with hypotheses a witness that meets them. -/

namespace Sys2Proof.Tests

open Sys2Proof.Machine

/-- A state with nothing presented. -/
def unitState (h len : Word) (phase : Phase) (code : ErrCode) : State :=
  { h := h, len := len, phase := phase, errcode := code, pins := [] }

/-- The state a step answers. -/
def nextState {σ : Type} (o : Host.Outcome σ Fault Refusal) : Option σ :=
  match o with
  | .next s => some s
  | .fault _ => none
  | .refused _ => none

/-! ### Well-formedness -/

/-- The one check of `Instr.wf`: a tail of four bytes is refused, one of three is not (30 R72). -/
theorem test_wf_refuses_long_tail :
    (Instr.tail [1, 2, 3, 4]).wf = false ∧ (Instr.tail [1, 2, 3]).wf = true ∧ (Instr.tail []).wf = true := by decide

/-! ### Decoding, from the encodings of 30 R73 (values: 95 section 4) -/

/-- `0000 s...`, seed 0x9747B28C: E2, and E3 at the largest seed. -/
theorem test_decode_init :
    decode 0b000010010111010001111011001010001100#36 = .command (.init 0x9747B28C) ∧
    decode 0b000011111111111111111111111111111111#36 = .command (.init 0xFFFFFFFF) := by decide

/-- `0100 d c b a`: E4. -/
theorem test_decode_block :
    decode 0b010001100100011000110110001001100001#36 = .command (.block 0x61 0x62 0x63 0x64) := by decide

/-- `10nn x c b a`: E6, E8, E10, E11. -/
theorem test_decode_tail :
    decode 0b100000000000000000000000000000000000#36 = .command (.tail []) ∧
    decode 0b100100000000000000000000000001100001#36 = .command (.tail [0x61]) ∧
    decode 0b101000000000000000000110001001100001#36 = .command (.tail [0x61, 0x62]) ∧
    decode 0b101100000000011000110110001001100001#36 = .command (.tail [0x61, 0x62, 0x63]) := by decide

/-- Ignored lanes: E7, E9, E12. -/
theorem test_decode_tail_ignored_lanes :
    decode 0x8DEADBEEF = .command (.tail []) ∧ decode 0x9FFFFFF61 = .command (.tail [0x61]) ∧
    decode 0xB64636261 = .command (.tail [0x61, 0x62, 0x63]) := by decide

/-- `1100 0...`: E13. -/
theorem test_decode_final : decode 0b110000000000000000000000000000000000#36 = .command .final := by decide

/-- Reserved words: E14 to E21. -/
theorem test_decode_reserved :
    decode 0xC00000001 = .reserved .finalWithOperand ∧ decode 0xD00000000 = .reserved .finalWithOperand ∧
    decode 0xE00000000 = .reserved .finalWithOperand ∧ decode 0xFFFFFFFFF = .reserved .finalWithOperand ∧
    decode 0x100000000 = .reserved .initWithCount ∧ decode 0x300000007 = .reserved .initWithCount ∧
    decode 0x500000000 = .reserved .blockWithCount ∧ decode 0x764636261 = .reserved .blockWithCount := by decide

/-- The examples of 30 R77. -/
theorem test_encode :
    encode (.init 0x9747B28C) = 0x09747B28C ∧ encode (.block 0x61 0x62 0x63 0x64) = 0x464636261 ∧
    encode (.tail [0x61, 0x62, 0x63]) = 0xB00636261 ∧ encode (.tail [0x61]) = 0x900000061 ∧
    encode (.tail []) = 0x800000000 ∧ encode .final = 0xC00000000 := by decide

/-- The table's 36 bits, and the same number in five whole bytes. -/
theorem test_decodeTableWord :
    decodeTableWord 36 0x464636261 = some (.block 0x61 0x62 0x63 0x64) ∧
    decodeTableWord 40 0x464636261 = some (.block 0x61 0x62 0x63 0x64) ∧
    decodeTableWord 40 0x1464636261 = none ∧ decodeTableWord 40 0xC00000001 = none := by decide

/-! ### Arithmetic (values: 95 sections 2 and 3) -/

/-- A1, A4, A9, A11, A12, A18, A19, A21. -/
theorem test_primitives :
    mul32 0xFFFFFFFF 0xFFFFFFFF = 1 ∧ mul32 0xFFFFFFFF constC1 = 0x3361D2AF ∧
    add32 (mul32 0x29FDE882 constM5) constN0 = 0xB849F5EE ∧
    rotl32 0x80000000 15 = 0x00004000 ∧ rotl32 0x00020000 15 = 1 ∧
    shr32 0x80000000 16 = 0x00008000 ∧ shr32 0xFFFFFFFF 13 = 0x0007FFFF ∧
    xor32 0xFFFFFFFF 0xBBEEB010 = 0x44114FEF := by decide

/-- K6 and K9; B6 and B7; T9; F9 and F12. -/
theorem test_mixers :
    scramble 0x64636261 = 0x5B9433B7 ∧ scramble 0xFFFFFFFF = 0xBBEEB010 ∧
    blockRound 0xFFFFFFFF 0xFFFFFFFF = 0xB849F5EE ∧ blockRound 0x9747B28C 0x6C6C6548 = 0xDAE4C92E ∧
    tailRound 0x3BD692AF (tailAssemble [0x21]) = 0x9788C38C ∧
    fmix 0x504BA9D5 1 = 0x3C2569B2 ∧ fmix 0x86A7049E 4 = 0x43ED676A := by decide

/-- T10: a tail byte is zero-extended. -/
theorem test_tail_zero_extends : tailAssemble [0x80] = 0x00000080 := by decide

/-! ### Single steps (values: 95 sections 7 and 8) -/

/-- Q21: `INIT` leaves `FAULT`. -/
theorem test_init_from_fault :
    nextState (exec (.init 7) (unitState 0x5B87902C 2 .fault .outOfSequence)) =
      some (unitState 7 0 .absorb .none) := by decide

/-- Q6: `INIT` abandons an operation. -/
theorem test_init_from_absorb :
    nextState (exec (.init 7) (unitState 0x5B87902C 2 .absorb .none)) = some (unitState 7 0 .absorb .none) := by decide

/-- P8: the length counter wraps. -/
theorem test_block_wraps_length :
    nextState (exec (.block 0 0 0 0) (unitState 0x12345678 0xFFFFFFFC .absorb .none)) =
      some (unitState 0x9C5F76C2 0 .absorb .none) := by decide

/-- Q17: a block after the result. -/
theorem test_block_in_done :
    nextState (exec (.block 0x61 0x62 0x63 0x64) (unitState 0x5B87902C 2 .done .none)) =
      some (unitState 0x5B87902C 2 .fault .outOfSequence) := by decide

/-- Q8. -/
theorem test_tail_two_bytes :
    nextState (exec (.tail [0x61, 0x62]) (unitState 0 0 .absorb .none)) =
      some (unitState 0x5B87902C 2 .tailed .none) := by decide

/-- Q13: a second tail, empty. -/
theorem test_tail_in_tailed :
    nextState (exec (.tail []) (unitState 0x5B87902C 2 .tailed .none)) =
      some (unitState 0x5B87902C 2 .fault .outOfSequence) := by decide

/-- Q14. -/
theorem test_final_in_tailed :
    nextState (exec .final (unitState 0x5B87902C 2 .tailed .none)) = some (unitState 0x9BBFD75F 2 .done .none) := by decide

/-- Q24: dropped in `FAULT`. -/
theorem test_final_in_fault :
    nextState (exec .final (unitState 0x5B87902C 2 .fault .outOfSequence)) =
      some (unitState 0x5B87902C 2 .fault .outOfSequence) := by decide

/-- P9: the encoding test comes before the sequence test. -/
theorem test_reserved_before_sequence :
    nextState (accept 0x500000000 State.reset) = some (unitState 0 0 .fault .reservedEncoding) := by decide

/-- Q25: the first code is kept. -/
theorem test_reserved_in_fault :
    nextState (accept 0xC00000001 (unitState 0x5B87902C 2 .fault .outOfSequence)) =
      some (unitState 0x5B87902C 2 .fault .outOfSequence) := by decide

/-- Q26: reset, with a word presented in the same cycle. -/
theorem test_reset_step :
    nextState (step { unitState 0x5B87902C 2 .done .none with pins := [{ rst := true, cmdValid := true, cmdWord := 7 }] }) =
      some State.reset := by decide

/-- The first step after reset runs the presented word. -/
theorem test_fetch_word :
    nextState (step (State.reset.withFetchWord 40 0x000000007)) = some (unitState 7 0 .absorb .none) := by decide

/-- P4: `status` after a fault; P1: the ports in `DONE`. -/
theorem test_ports :
    statusPort (unitState 0 0 .fault .outOfSequence) = 0b10100 ∧ statusPort (unitState 0x43ED676A 4 .done .none) = 0b00011 ∧
    resData (unitState 0x43ED676A 4 .done .none) = 0x43ED676A ∧ resData (unitState 0x43ED676A 4 .tailed .none) = 0 := by decide

/-! ### Whole messages and text -/

/-- The source's vectors S2 to S7 (95 section 1), V8 and V31. -/
theorem test_hash :
    hashFn 0 [] = 0 ∧ hashFn 0 [0x61] = 0x3C2569B2 ∧ hashFn 0 [0x61, 0x62] = 0x9BBFD75F ∧
    hashFn 0 [0x61, 0x62, 0x63, 0x64] = 0x43ED676A ∧ hashFn 1 [] = 0x514E28B7 ∧
    hashFn 0 [0x61, 0x62, 0x63] = 0xB3DD93FA ∧ hashFn 0 [0x61, 0x62, 0x63, 0x64, 0x65] = 0xE89B9AF6 ∧
    hashFn 0 [0x61, 0x62, 0x63, 0x00] = 0xA054B4DA := by decide

/-- P1: the words of `HASH 0, "abcd"`. -/
theorem test_drive :
    drive 0 [0x61, 0x62, 0x63, 0x64] = [0x000000000, 0x464636261, 0x800000000, 0xC00000000] ∧
    driveShort 0 [0x61, 0x62, 0x63, 0x64] = [0x000000000, 0x464636261, 0xC00000000] ∧
    hostReads 6 = [(0, 4), (4, 2)] := by decide

/-- The text `HASH 1, "a"`, with a comment, and a number too large for a byte (30 R77, R79). -/
theorem test_assemble_text :
    assembleText ['H', 'A', 'S', 'H', ' ', '1', ',', ' ', quoteChar, 'a', quoteChar, ';', 'x'] =
      some [0x000000001, 0x900000061, 0xC00000000] ∧
    assembleText ['T', 'A', 'I', 'L', ' ', '2', '5', '6'] = none := by decide

/-- E9: a `TAIL` word with an ignored lane that is not zero is printed as `.cw`. -/
theorem test_disassemble_ignored_lane :
    renderLine (disassemble 0x9FFFFFF61) = ['.', 'c', 'w', ' ', '0', 'x', '9', 'F', 'F', 'F', 'F', 'F', 'F', '6', '1'] := by
  decide

/-! ### Witnesses: the hypotheses of the statements are met -/

/-- `ABSORB` with a running hash. -/
def absorbing : State := unitState 0x86A7049E 4 .absorb .none

/-- `TAILED`. -/
def tailedUnit : State := unitState 0x5B87902C 2 .tailed .none

/-- `DONE`. -/
def doneUnit : State := unitState 0x43ED676A 4 .done .none

/-- `FAULT`. -/
def faulted : State := unitState 0x5B87902C 2 .fault .outOfSequence

theorem witness_DecodeEncodeAgree :
    ([0x61, 0x62, 0x63] : List Byte).length ≤ 3 ∧ (Instr.tail [0x61, 0x62, 0x63]).wf = true ∧
    decode 0xB64636261 = .command (.tail [0x61, 0x62, 0x63]) ∧ opField 0xC00000000 ≠ 0b10#2 ∧
    dataField 0xB00636261 &&& ~~~tailmask (cntField 0xB00636261) = 0#32 := by decide

theorem witness_ReservedWordsFault :
    (∃ k, decode 0x100000000 = .reserved k) ∧ (∃ k, decode 0x700000000 = .reserved k) ∧
    (∃ k, decode 0xC80000000 = .reserved k) ∧ State.reset.PhaseNamed ∧ State.reset.phase ≠ .fault ∧
    doneUnit.PhaseNamed ∧ doneUnit.phase ≠ .fault ∧ faulted.phase = .fault ∧
    accept 0x100000000 faulted = .next faulted :=
  ⟨⟨.initWithCount, by decide⟩, ⟨.blockWithCount, by decide⟩, ⟨.finalWithOperand, by decide⟩, by decide, by decide,
    by decide, by decide, by decide, rfl⟩

/-- The first clause twice: a word beside itself, and two `TAIL` words that differ in ignored lanes; the second clause. -/
theorem witness_OnlyIgnoredLanesMerge :
    decode 0x9FFFFFF61 = .command (.tail [0x61]) ∧ decode 0x900000061 = .command (.tail [0x61]) ∧
    opField 0x9FFFFFF61 = 0b10#2 ∧ opField 0x900000061 = 0b10#2 ∧ cntField 0x9FFFFFF61 = cntField 0x900000061 ∧
    (∀ j < 8 * (cntField 0x9FFFFFF61).toNat, (0x9FFFFFF61 : CmdWord).getLsbD j = (0x900000061 : CmdWord).getLsbD j) := by
  decide

theorem witness_OperandsFromTheWord :
    decode 0x0FFFFFFFF = .command (.init 0xFFFFFFFF) ∧ decode 0x464636261 = .command (.block 0x61 0x62 0x63 0x64) ∧
    decode 0x8DEADBEEF = .command (.tail []) ∧ decode 0xB64636261 = .command (.tail [0x61, 0x62, 0x63]) ∧
    2 < ([0x61, 0x62, 0x63] : List Byte).length := by decide

theorem witness_LittleEndianAssembly :
    ([1, 2, 3, 4] : List Byte).length ≤ 4 ∧ ([] : List Byte).length ≤ 4 ∧ 0 < 4 ∧ 3 < 4 := by decide

theorem witness_PrimitivesAsNumbers : 0 < 32 ∧ 31 < 32 ∧ 0 ≤ 31 ∧ 31 ≤ 31 := by decide

/-- The ranges of `r`, `i` and `s` at both ends, for the rotation and for the xor-shift. -/
theorem witness_RotationMovesBits : 0 ≤ 31 ∧ 31 ≤ 31 ∧ 0 < 32 ∧ 31 < 32 ∧ 1 ≤ 1 ∧ 1 ≤ 31 := by decide

theorem witness_MixersAreBijections : 1 ≤ 1 ∧ 1 ≤ 31 ∧ 1 ≤ 16 ∧ 16 ≤ 31 ∧ 31 ≤ 31 := by decide

/-- One state in each phase of the clauses of the four result statements (`BlockAbsorbsFourBytes`, `TailAbsorbsTheRest`,
`FinalPublishesTheResult`, `EmptyTailChangesNothing`), and tails of no and of three bytes. -/
theorem witness_command_phases :
    State.reset.phase = .idle ∧ absorbing.phase = .absorb ∧ tailedUnit.phase = .tailed ∧ doneUnit.phase = .done ∧
    faulted.phase = .fault ∧ absorbing.errcode = .none ∧ ([] : List Byte).length ≤ 3 ∧
    ([1, 2, 3] : List Byte).length ≤ 3 ∧ (0x8DEADBEEF : CmdWord).extractLsb' 34 2 = 0b10#2 ∧
    (0xB00000000 : CmdWord).extractLsb' 34 2 = 0b10#2 := by decide

/-- `fmix` written out (44 R140): the values of `FinalPublishesTheResult` exist, F12. -/
theorem witness_FinalPublishesTheResult :
    (0x86A7049A : Word) = absorbing.h ^^^ absorbing.len ∧ (0x86A7823D : Word) = 0x86A7049A ^^^ (0x86A7049A >>> 16) ∧
    (0xB3C6917F : Word) = 0x86A7823D * 0x85ebca6b ∧ (0xB3C30F4B : Word) = 0xB3C6917F ^^^ (0xB3C6917F >>> 13) ∧
    (0x43ED2487 : Word) = 0xB3C30F4B * 0xc2b2ae35 ∧ (0x43ED676A : Word) = 0x43ED2487 ^^^ (0x43ED2487 >>> 16) := by decide

/-- Two states that agree in the pins and in `PHASE` and differ elsewhere; a legal and an illegal command, not an `INIT`. -/
theorem witness_AccessTable :
    absorbing.pins = (unitState 1 0 .absorb .none).pins ∧ absorbing.phase = (unitState 1 0 .absorb .none).phase ∧
    absorbing.phase ≠ .fault ∧ legal absorbing.phase (.command (.block 0 0 0 0)) = true ∧
    legal doneUnit.phase (.command .final) = false ∧ doneUnit.PhaseNamed ∧ faulted.phase = .fault ∧
    (∀ seed, Instr.final ≠ .init seed) ∧ (∀ seed, Instr.block 0 0 0 0 ≠ .init seed) ∧
    (∀ bs, Instr.block 0 0 0 0 ≠ .tail bs) ∧
    exec (.block 0 0 0 0) absorbing = .next (absorbBlock 0 absorbing) ∧
    exec .final doneUnit = .next (raiseFault .outOfSequence doneUnit) ∧ exec .final faulted = .next faulted :=
  ⟨rfl, rfl, by decide, by decide, by decide, by decide, by decide, nofun, nofun, nofun, rfl, rfl, rfl⟩

/-- An entry of each form of the table. -/
theorem witness_PhaseMovesByTheTable :
    accept 0x464636261 faulted = .next faulted ∧ tableEntry faulted.phase (column (decode 0x464636261)) = none ∧
    accept 0x464636261 State.reset = .next (raiseFault .outOfSequence State.reset) ∧
    tableEntry State.reset.phase (column (decode 0x464636261)) = some (.fault, some .outOfSequence) ∧
    accept 0x000000007 faulted = .next (startOperation 7 faulted) ∧ column (decode 0x000000007) = .init ∧
    tableEntry faulted.phase (column (decode 0x000000007)) = some (.absorb, none) ∧
    accept 0xC00000000 absorbing = .next (finalize absorbing) ∧ column (decode 0xC00000000) ≠ .init ∧
    tableEntry absorbing.phase (column (decode 0xC00000000)) = some (.done, none) :=
  ⟨rfl, by decide, rfl, by decide, rfl, by decide, by decide, rfl, by decide, by decide⟩

/-- `absorbing` with the word `w` presented. -/
def presented (w : CmdWord) : State := { absorbing with pins := [present w] }

theorem witness_StepRunsTheDecodedCommand :
    (presented 0x464636261).pins = { rst := false, cmdValid := true, cmdWord := 0x464636261 } :: [] ∧
    decode 0x464636261 = .command (.block 0x61 0x62 0x63 0x64) ∧
    (presented 0x500000000).pins = { rst := false, cmdValid := true, cmdWord := 0x500000000 } :: [] ∧
    decode 0x500000000 = .reserved .blockWithCount := by decide

theorem witness_FetchedWordRunsNext : decodeTableWord 36 0xC00000000 = some .final := by decide

/-- An invariant state outside `FAULT`, and a step on each kind of word: the reserved word, the three out of sequence, a legal one. -/
theorem witness_WhatRaisesEachFault :
    State.reset.Inv ∧ State.reset.phase ≠ .fault ∧ absorbing.Inv ∧ absorbing.phase ≠ .fault ∧
    doneUnit.Inv ∧ doneUnit.phase ≠ .fault ∧
    accept 0x100000000 State.reset = .next (raiseFault .reservedEncoding State.reset) ∧
    accept 0x400000000 State.reset = .next (raiseFault .outOfSequence State.reset) ∧
    accept 0x800000000 doneUnit = .next (raiseFault .outOfSequence doneUnit) ∧
    accept 0xC00000000 doneUnit = .next (raiseFault .outOfSequence doneUnit) ∧
    accept 0xC00000000 absorbing = .next (finalize absorbing) :=
  ⟨by decide, by decide, by decide, by decide, by decide, by decide, rfl, rfl, rfl, rfl, rfl⟩

theorem witness_FaultsArePrecise :
    accept 0xC00000000 doneUnit = .next (raiseFault .outOfSequence doneUnit) ∧ doneUnit.phase ≠ .fault ∧
    (raiseFault .outOfSequence doneUnit).phase = .fault := ⟨rfl, by decide, rfl⟩

theorem witness_FaultDropsWords :
    faulted.phase = .fault ∧ (∀ seed, decode 0xC00000001 ≠ .command (.init seed)) ∧
    (∀ seed, decode 0x464636261 ≠ .command (.init seed)) ∧
    { faulted with pins := [present 0xC00000001] }.pins = present 0xC00000001 :: [] :=
  ⟨rfl, nofun, nofun, rfl⟩

/-- Both ways out. -/
theorem witness_WaysOutOfFault :
    faulted.phase = .fault ∧
    nextState (step { faulted with pins := [present 7] }) = some (unitState 7 0 .absorb .none) ∧
    (unitState 7 0 .absorb .none).phase ≠ .fault ∧
    nextState (step { faulted with pins := [{ quiet with rst := true }] }) = some State.reset ∧
    State.reset.errcode ≠ faulted.errcode := by decide

theorem witness_FaultPriority :
    decode 0x500000000 = .reserved .blockWithCount ∧ State.reset.PhaseNamed ∧ State.reset.phase ≠ .fault ∧
    { absorbing with pins := [{ present 7 with rst := true }] }.pins =
      { rst := true, cmdValid := true, cmdWord := 7 } :: [] ∧
    faulted.phase = .fault ∧ accept 0x500000000 faulted = .next faulted :=
  ⟨by decide, by decide, by decide, rfl, rfl, rfl⟩

theorem witness_OnlyFinalFinishes :
    nextState (step (presented 0xC00000000)) = some doneUnit ∧ (presented 0xC00000000).phase ≠ .done ∧
    doneUnit.phase = .done := by decide

theorem witness_ResultPort :
    doneUnit.phase = .done ∧ absorbing.phase ≠ .done ∧ step doneUnit = .next doneUnit ∧
    absorbing.phase = (unitState 1 0 .absorb .none).phase ∧ absorbing.errcode = (unitState 1 0 .absorb .none).errcode :=
  ⟨rfl, by decide, rfl, rfl, rfl⟩

theorem test_reset_invariant : State.reset.Inv := by decide

/-- A state of the invariant in each phase, and a step of one of them. -/
theorem witness_InvariantKeptByStep :
    State.reset.Inv ∧ absorbing.Inv ∧ tailedUnit.Inv ∧ doneUnit.Inv ∧ faulted.Inv ∧ (presented 0xC00000000).Inv ∧
    nextState (step (presented 0xC00000000)) = some doneUnit :=
  ⟨by decide, by decide, by decide, by decide, by decide, by decide, by decide⟩

theorem witness_ReachableStates :
    core.run 1 { State.reset with pins := [present 7] } = .next (unitState 7 0 .absorb .none) ∧
    ¬ (unitState 1 2 .unused5 .none).PhaseNamed := ⟨rfl, by decide⟩

/-- A step that changes every register, and one that changes none but PHASE and ERRCODE (`StatusShowsPhaseAndCode`, `ResetWins`). -/
theorem witness_register_changes :
    nextState (step { faulted with pins := [present 7] }) = some (unitState 7 0 .absorb .none) ∧
    nextState (step { doneUnit with pins := [present 0xC00000000] }) = some (unitState 0x43ED676A 4 .fault .outOfSequence) ∧
    (unitState 7 0 .absorb .none).h ≠ faulted.h ∧ (unitState 7 0 .absorb .none).len ≠ faulted.len ∧
    (unitState 7 0 .absorb .none).phase ≠ faulted.phase ∧ (unitState 7 0 .absorb .none).errcode ≠ faulted.errcode := by decide

theorem witness_ResetWins :
    { absorbing with pins := [{ rst := true, cmdValid := true, cmdWord := 7 }] }.pins =
      { rst := true, cmdValid := true, cmdWord := 7 } :: [] := rfl

theorem witness_WaitsForEver :
    nextIsReset absorbing = false ∧ acceptedWord absorbing = none ∧
    nextIsReset { absorbing with pins := [quiet] } = false ∧ acceptedWord { absorbing with pins := [quiet] } = none ∧
    (∀ p ∈ [quiet, quiet], p.rst = false ∧ p.cmdValid = false) := by decide

theorem witness_NothingSurvivesInit :
    acceptedWord (presented 7) = some 7 ∧ decode 7 = .command (.init 7) ∧
    (presented 7).pins = { faulted with pins := [present 7] }.pins := by decide

theorem witness_HostReadsTheMessageOnce :
    (0, 4) ∈ hostReads ([1, 2, 3, 4, 5] : List Byte).length ∧ (4, 1) ∈ hostReads ([1, 2, 3, 4, 5] : List Byte).length ∧
    0 < ([1, 2, 3, 4, 5] : List Byte).length / 4 := by decide

theorem witness_BlockLoop :
    ([1, 2, 3, 4, 5] : List Byte).length / 4 = ([1, 2, 3, 4, 6] : List Byte).length / 4 ∧
    ([1, 2, 3, 4, 5] : List Byte).take 4 = ([1, 2, 3, 4, 6] : List Byte).take 4 := by decide

/-- P3, and a run without an `INIT`. -/
theorem witness_EveryResultIsAHash :
    (∃ w ∈ ([0x000000001, 0xC00000000] : List CmdWord), ∃ seed, decode w = .command (.init seed)) ∧
    nextState (runWords [0x000000001, 0xC00000000] doneUnit) = some (unitState 0x514E28B7 0 .done .none) ∧
    (∀ w ∈ ([0xC00000000] : List CmdWord), ∀ seed, decode w ≠ .command (.init seed)) ∧ State.reset.phase = .idle ∧
    runWords [0xC00000000] State.reset = .next (raiseFault .outOfSequence State.reset) :=
  ⟨⟨0x000000001, by decide, 1, by decide⟩, by decide, fun _ h => List.mem_singleton.mp h ▸ nofun, rfl, rfl⟩

theorem witness_HashingNeverFaults : 1 ≤ 1 ∧ 1 ≤ (drive 0 []).length ∧ 3 ≤ (drive 0 []).length := by decide

/-! The cycle level, at the latencies 1, 2, 1, 3 and 1. -/

/-- `T - 1` for each command. -/
def lat : Latency := { busyInit := 0, busyBlock := 1, busyTail := 0, busyFinal := 2, busyReserved := 0 }

/-- A unit between two commands. -/
def readyUnit : CycleState := { unit := absorbing, inFlight := none }

/-- A unit that executes a `BLOCK`. -/
def busyUnit : CycleState := { unit := absorbing, inFlight := some { word := 0x464636261, left := 0 } }

theorem witness_AcceptanceNeedsReady :
    quiet.rst = false ∧ (present 7).rst = false ∧ cycleReady quiet busyUnit = false ∧
    cycleReady quiet readyUnit = true ∧ quiet.cmdValid = false := by decide

/-- A command with no busy cycle and one with two, after one and after both. -/
theorem witness_CommandsCompleteWhole :
    cycleAccepts (present 7) readyUnit = true ∧ ([] : List Pins).length = busyCycles lat 7 ∧
    cycleAccepts (present 0xC00000000) readyUnit = true ∧ (∀ q ∈ [quiet, present 7], q.rst = false) ∧
    [quiet].length < busyCycles lat 0xC00000000 ∧ [quiet, present 7].length = busyCycles lat 0xC00000000 := by decide

theorem witness_ResetAbandonsTheCommand : ({ quiet with rst := true } : Pins).rst = true := rfl

/-- A run that ends between commands and one that ends within one. -/
theorem witness_CyclesRefineTransactions :
    (nextState (clockRun lat [present 7] readyUnit)).map (·.inFlight) = some none ∧
    (nextState (clockRun lat [present 0xC00000000] readyUnit)).map (·.inFlight) =
      some (some { word := 0xC00000000, left := 1 }) ∧
    transactions lat [present 7, quiet, present 0xC00000000, present 7] readyUnit = [present 7, present 0xC00000000] := by decide

/-- Both sequences, at different paces. -/
theorem witness_DriverObtainsTheHash :
    cycleAccepts (present 0xC00000000) readyUnit = true ∧
    ([(0, 0x000000001), (3, 0x800000000), (1, 0xC00000000)] : List (Nat × CmdWord)).map Prod.snd = drive 1 [] ∧
    ([(2, 0x000000001), (0, 0xC00000000)] : List (Nat × CmdWord)).map Prod.snd = driveShort 1 [] := by decide

/-- P3 through the handshake from a unit at work: a pause before the INIT, one before the read (value: 95 section 8). -/
theorem test_host_at_a_pace :
    (nextState (hostRun lat 10
      { toSend := [(2, 0x000000001), (0, 0xC00000000)], readAfter := 1, cycle := busyUnit, got := none })).map (·.got) =
      some (some 0x514E28B7) := by decide

theorem witness_UnitsAreIndependent : [State.reset, absorbing][1]? = some absorbing := by decide

theorem witness_DisassemblyReadsBack : (Instr.tail [0x61, 0x62, 0x63]).wf = true ∧ Instr.final.wf = true := by decide

end Sys2Proof.Tests
end

/-! ## Proofs of the family 10_state: the ports, what one step does, and the invariant of 10 R35 -/

namespace Sys2Proof.Proofs

open Sys2Proof.Machine

/-! ### The ports (10 R28, R29) -/

theorem phaseBits_inj {p q : Phase} : phaseBits p = phaseBits q ↔ p = q := by
  cases p <;> cases q <;> decide

theorem errBits_inj {c d : ErrCode} : errBits c = errBits d ↔ c = d := by
  cases c <;> cases d <;> decide

/-- `status[2:0] = PHASE` -/
@[simp] theorem statusPort_low (s : State) : (statusPort s).extractLsb' 0 3 = phaseBits s.phase :=
  BitVec.extractLsb'_append_eq_right

/-- `status[4:3] = ERRCODE` -/
@[simp] theorem statusPort_high (s : State) : (statusPort s).extractLsb' 3 2 = errBits s.errcode :=
  BitVec.extractLsb'_append_eq_left

theorem statusPort_eq_iff (s s' : State) :
    statusPort s = statusPort s' ↔ s.phase = s'.phase ∧ s.errcode = s'.errcode := by
  constructor
  · intro h
    have hlow := congrArg (BitVec.extractLsb' 0 3) h
    have hhigh := congrArg (BitVec.extractLsb' 3 2) h
    rw [statusPort_low, statusPort_low] at hlow
    rw [statusPort_high, statusPort_high] at hhigh
    exact ⟨phaseBits_inj.mp hlow, errBits_inj.mp hhigh⟩
  · rintro ⟨hphase, hcode⟩
    simp only [statusPort, hphase, hcode]

theorem resValid_iff (s : State) : resValid s = true ↔ s.phase = .done := by
  simp only [resValid, decide_eq_true_eq]

theorem resData_of_done {s : State} (h : s.phase = .done) : resData s = s.h := by
  simp only [resData, if_pos h]

theorem resData_of_not_done {s : State} (h : s.phase ≠ .done) : resData s = 0 := by
  simp only [resData, if_neg h]

/-! ### What a step does -/

/-- Everything a step can do: reset the unit, accept the presented word, or wait. -/
theorem step_cases {s t : State} (h : step s = .next t) :
    (nextIsReset s = true ∧ t = resetUnit (s.setPins s.pins.tail)) ∨
    (nextIsReset s = false ∧ ∃ w, acceptedWord s = some w ∧ accept w (s.setPins s.pins.tail) = .next t) ∨
    (nextIsReset s = false ∧ acceptedWord s = none ∧ t = s.setPins s.pins.tail) := by
  cases hp : s.pins with
  | nil =>
    rw [step_of_nil hp] at h
    have hs : s.setPins [] = s := by rw [← hp]; rfl
    exact .inr (.inr ⟨by simp [nextIsReset, hp], by simp [acceptedWord, hp],
      (Host.Outcome.next.inj h).symm.trans hs.symm⟩)
  | cons p ps =>
    rw [step_of_cons hp] at h
    rcases samplePins_cases h with ⟨hr, ht⟩ | ⟨hr, hv, ha⟩ | ⟨hr, hv, ht⟩
    · exact .inl ⟨by simpa [nextIsReset, hp] using hr, ht⟩
    · exact .inr (.inl ⟨by simpa [nextIsReset, hp] using hr, p.cmdWord, by simp [acceptedWord, hp, hr, hv], ha⟩)
    · exact .inr (.inr ⟨by simpa [nextIsReset, hp] using hr, by simp [acceptedWord, hp, hv], ht⟩)

/-- In a phase that drops words, a word that is not an `INIT` leaves the state as it is (60 R177, 10 R35). -/
theorem accept_of_drops {w : CmdWord} {s : State} (hw : ∀ seed, decode w ≠ .command (.init seed))
    (hd : drops s.phase = true) : accept w s = .next s := by
  cases hdec : decode w with
  | command i =>
    have hi : ∀ seed, i ≠ .init seed := fun seed e => hw seed (e ▸ hdec)
    rw [accept_of_command hdec, exec_of_not_init hi, sequenced_of_drops hd]
  | reserved k =>
    rw [accept_of_reserved hdec, acceptReserved, if_pos hd]

/-- In `DONE` only an `INIT` is legal (45 R150). -/
theorem legal_done_eq_false {i : Instr} (hi : ∀ seed, i ≠ .init seed) : legal .done (.command i) = false := by
  cases i with
  | init seed => exact absurd rfl (hi seed)
  | block b0 b1 b2 b3 => rfl
  | tail bs => rfl
  | final => rfl

/-- From `DONE` an accepted word is an `INIT` or faults. -/
theorem accept_of_done {w : CmdWord} {s t : State} (hs : s.phase = .done) (h : accept w s = .next t) :
    (∃ seed, decode w = .command (.init seed)) ∨ t.phase = .fault := by
  rcases accept_cases h with
    ⟨seed, hw, -⟩ | ⟨-, hd, -⟩ | ⟨i, -, hi, -, hl, -⟩ | ⟨i, -, -, -, -, rfl⟩ | ⟨k, -, -, rfl⟩
  · exact .inl ⟨seed, hw⟩
  · simp [hs, drops] at hd
  · simp [hs, legal_done_eq_false hi] at hl
  · exact .inr (raiseFault_phase _ _)
  · exact .inr (raiseFault_phase _ _)

/-! ### The invariant of 10 R35 -/

/-- Phases 5 to 7 drop words as `FAULT` does. -/
theorem drops_of_not_phaseNamed {s : State} (h : ¬ s.PhaseNamed) : drops s.phase = true := by
  rw [State.PhaseNamed] at h
  revert h
  cases s.phase <;> decide

/-- Outside `FAULT` the invariant says nothing of `ERRCODE` but `NONE`. -/
theorem errcode_of_inv {s : State} (hs : s.Inv) (hf : s.phase ≠ .fault) : s.errcode = .none := by
  obtain ⟨-, -, hcode, -, -⟩ := hs
  exact not_not.mp (mt hcode.mp hf)

theorem inv_reset : State.reset.Inv := by decide

theorem inv_setPins {s : State} (hs : s.Inv) (ps : List Pins) : (s.setPins ps).Inv := by
  simpa only [State.Inv, State.PhaseNamed, State.setPins_h, State.setPins_len, State.setPins_phase,
    State.setPins_errcode] using hs

theorem inv_resetUnit (s : State) : (resetUnit s).Inv := by
  simp [State.Inv, phaseBits, errBits]

theorem inv_startOperation (seed : Word) (s : State) : (startOperation seed s).Inv := by
  simp [State.Inv, phaseBits, errBits]

/-- A fault entry meets the invariant when it sets one of the codes 1 and 2. -/
theorem inv_raiseFault {c : ErrCode} (hc : c = .reservedEncoding ∨ c = .outOfSequence) (s : State) :
    (raiseFault c s).Inv := by
  rcases hc with rfl | rfl <;> simp [State.Inv, phaseBits, errBits]

/-- Four more bytes keep `LEN` a multiple of 4, across the wrap of 10 R22 too. -/
theorem add32_four_mod {n : Word} (h : n.toNat % 4 = 0) : (add32 n 4).toNat % 4 = 0 := by
  have hfour : (4 : Word).toNat = 4 := rfl
  rw [add32, BitVec.toNat_add, hfour]
  omega

theorem inv_absorbBlock {s : State} (hs : s.Inv) (hp : s.phase = .absorb) (k : Word) : (absorbBlock k s).Inv := by
  have hcode : s.errcode = .none := errcode_of_inv hs (by simp [hp])
  obtain ⟨-, -, -, -, hlen⟩ := hs
  simpa [State.Inv, phaseBits, errBits, hcode] using add32_four_mod (hlen hp)

theorem inv_absorbTail {s : State} (hs : s.Inv) (hf : s.phase ≠ .fault) (bs : List Byte) : (absorbTail bs s).Inv := by
  simp [State.Inv, phaseBits, errBits, errcode_of_inv hs hf]

theorem inv_finalize {s : State} (hs : s.Inv) (hf : s.phase ≠ .fault) : (finalize s).Inv := by
  simp [State.Inv, phaseBits, errBits, errcode_of_inv hs hf]

/-- A command in sequence keeps the invariant. -/
theorem inv_effectOf {i : Instr} {s : State} (hs : s.Inv) (hd : drops s.phase = false)
    (hl : legal s.phase (.command i) = true) : (effectOf i s).Inv := by
  have hf : s.phase ≠ .fault := fun e => by simp [e, drops] at hd
  cases i with
  | init seed => exact inv_startOperation seed s
  | block b0 b1 b2 b3 => exact inv_absorbBlock hs (by simpa [legal] using hl) _
  | tail bs => exact inv_absorbTail hs hf bs
  | final => exact inv_finalize hs hf

theorem accept_keeps_inv {w : CmdWord} {s t : State} (hs : s.Inv) (h : accept w s = .next t) : t.Inv := by
  rcases accept_cases h with
    ⟨seed, -, rfl⟩ | ⟨-, -, rfl⟩ | ⟨i, -, -, hd, hl, rfl⟩ | ⟨i, -, -, -, -, rfl⟩ | ⟨k, -, -, rfl⟩
  · exact inv_startOperation seed s
  · exact hs
  · exact inv_effectOf hs hd hl
  · exact inv_raiseFault (.inr rfl) s
  · exact inv_raiseFault (.inl rfl) s

theorem step_keeps_inv {s t : State} (hs : s.Inv) (h : step s = .next t) : t.Inv := by
  rcases step_cases h with ⟨-, rfl⟩ | ⟨-, w, -, ha⟩ | ⟨-, -, rfl⟩
  · exact inv_resetUnit _
  · exact accept_keeps_inv (inv_setPins hs _) ha
  · exact inv_setPins hs _

/-- A run of one step more is a step and the run from where it leads. -/
theorem run_succ_next {M : Host.Core} {n : Nat} {s t : M.State} (h : M.run (n + 1) s = .next t) :
    ∃ s', M.step s = .next s' ∧ M.run n s' = .next t := by
  rw [Host.Core.run] at h
  split at h
  · next s' hs' => exact ⟨s', hs', h⟩
  · cases h
  · cases h

/-- What every step keeps, every run keeps. -/
theorem run_keeps {M : Host.Core} {P : M.State → Prop} (hstep : ∀ s t, P s → M.step s = .next t → P t) (n : Nat)
    {s t : M.State} (hs : P s) (h : M.run n s = .next t) : P t := by
  induction n generalizing s with
  | zero => exact Host.Outcome.next.inj h ▸ hs
  | succ n ih =>
    obtain ⟨s', hs', hrun⟩ := run_succ_next h
    exact ih (hstep s s' hs hs') hrun

/-! ### The statements -/

/-- Settles O32: the two fields of the port, and the three things a step can do, of which waiting changes no register. -/
theorem statusShowsPhaseAndCode : Obligations.StatusShowsPhaseAndCode := by
  refine ⟨fun s => ⟨statusPort_low s, statusPort_high s⟩, statusPort_eq_iff, fun s t h hchange => ?_⟩
  rcases step_cases h with ⟨hr, -⟩ | ⟨-, w, hw, -⟩ | ⟨-, -, rfl⟩
  · exact .inl hr
  · exact .inr ⟨w, hw⟩
  · simp at hchange

/-- Settles O33: in `DONE` a word that is no `INIT` faults, and waiting changes no register; outside `DONE` the ports are
functions of `PHASE` and `ERRCODE`. -/
theorem resultPort : Obligations.ResultPort := by
  refine ⟨fun s => ⟨resValid_iff s, resData_of_done, resData_of_not_done⟩, fun s t hs h => ?_,
    fun s s' hs hphase hcode => ⟨?_, ?_, ?_⟩⟩
  · rcases step_cases h with ⟨hr, -⟩ | ⟨-, w, hw, ha⟩ | ⟨-, -, rfl⟩
    · exact .inr (.inr (.inr hr))
    · rcases accept_of_done (by simpa using hs) ha with ⟨seed, hinit⟩ | hfault
      · exact .inr (.inl ⟨w, seed, hw, hinit⟩)
      · exact .inr (.inr (.inl hfault))
    · have ht : (s.setPins s.pins.tail).phase = .done := by simpa using hs
      exact .inl ⟨(resValid_iff _).mpr ht, by rw [resData_of_done ht, resData_of_done hs, State.setPins_h]⟩
  · simp only [resValid, hphase]
  · rw [resData_of_not_done hs, resData_of_not_done (hphase ▸ hs)]
  · exact (statusPort_eq_iff s s').mpr ⟨hphase, hcode⟩

/-- Settles O36: the invariant holds in the reset state whatever the pins and every step keeps it; the phases 5 to 7 drop
every word but an `INIT`. -/
theorem reachableStates : Obligations.ReachableStates := by
  constructor
  · intro ps n t h
    exact @run_keeps core State.Inv (fun _ _ => step_keeps_inv) n _ _ (inv_setPins inv_reset ps) h
  · intro w s hs
    by_cases hw : ∃ seed, decode w = .command (.init seed)
    · exact .inl hw
    · exact .inr (accept_of_drops (not_exists.mp hw) (drops_of_not_phaseNamed hs))

/-- Settles O31: the four registers are written out in the reset state, and the phase `IDLE` shows no result (10 R29). -/
theorem resetState : Obligations.ResetState :=
  ⟨rfl, rfl, rfl, rfl, by decide, by decide, resData_of_not_done (by decide)⟩

end Sys2Proof.Proofs

-- The family 20_memory.md: byte order.
namespace Sys2Proof.Proofs

/-- Settles O8: byte `j` is `extractLsb'_le`, which holds whatever the length of the list; a list without a byte `j` gives the
zero of `getD`. -/
theorem littleEndianAssembly : Obligations.LittleEndianAssembly := by
  refine ⟨fun bs j _ hj => extractLsb'_le bs j hj, le_nil, ?_, ?_, ?_⟩ <;> decide

end Sys2Proof.Proofs

/-! ## Proofs of the family 30_encoding: the decoder as a relation, operands, the encoder, the counts -/

namespace Sys2Proof.Proofs

open Sys2Proof.Machine

/-! ### The decoder as a relation on the fields (30 R73 to R75) -/

theorem ite_command_eq_iff {c : Prop} [Decidable c] {i j : Instr} {k : ReservedKind} :
    (if c then Decoded.command i else .reserved k) = .command j ↔ c ∧ j = i := by
  split <;> simp [*, eq_comm]

theorem ite_eq_reserved_iff {c : Prop} [Decidable c] {i : Instr} {k : ReservedKind} :
    (∃ k', (if c then Decoded.command i else .reserved k) = .reserved k') ↔ ¬ c := by
  split <;> simp [*]

/-- Which words decode to which command: a row of 30 R73 for each value of `OP`. -/
theorem decode_eq_command_iff (w : CmdWord) (i : Instr) :
    decode w = .command i ↔
      (opField w = 0#2 ∧ cntField w = 0#2 ∧ i = .init (dataField w)) ∨
      (opField w = 1#2 ∧ cntField w = 0#2 ∧ i = .block (lane0 w) (lane1 w) (lane2 w) (lane3 w)) ∨
      (opField w = 2#2 ∧ i = .tail ([lane0 w, lane1 w, lane2 w].take (cntField w).toNat)) ∨
      (opField w = 3#2 ∧ cntField w = 0#2 ∧ dataField w = 0#32 ∧ i = .final) := by
  rcases toNat_two_cases (opField w) with ho | ho | ho | ho
  · rw [decode_of_op_zero ho, ite_command_eq_iff]
    simp [ho]
  · rw [decode_of_op_one ho, ite_command_eq_iff]
    simp [ho]
  · rw [decode_of_op_two ho]
    simp [ho, eq_comm]
  · rw [decode_of_op_three ho, ite_command_eq_iff]
    simp [ho, and_assoc]

theorem decode_eq_init_iff (w : CmdWord) (seed : Word) :
    decode w = .command (.init seed) ↔ opField w = 0#2 ∧ cntField w = 0#2 ∧ seed = dataField w := by
  simp [decode_eq_command_iff]

theorem decode_eq_block_iff (w : CmdWord) (b0 b1 b2 b3 : Byte) :
    decode w = .command (.block b0 b1 b2 b3) ↔
      opField w = 1#2 ∧ cntField w = 0#2 ∧ b0 = lane0 w ∧ b1 = lane1 w ∧ b2 = lane2 w ∧ b3 = lane3 w := by
  simp [decode_eq_command_iff]

theorem decode_eq_tail_iff (w : CmdWord) (bs : List Byte) :
    decode w = .command (.tail bs) ↔
      opField w = 2#2 ∧ bs = [lane0 w, lane1 w, lane2 w].take (cntField w).toNat := by
  simp [decode_eq_command_iff]

theorem decode_eq_final_iff (w : CmdWord) :
    decode w = .command .final ↔ opField w = 3#2 ∧ cntField w = 0#2 ∧ dataField w = 0#32 := by
  simp [decode_eq_command_iff]

/-- The three kinds of reserved word (30 R75). -/
theorem decode_reserved_iff (w : CmdWord) :
    (∃ k, decode w = .reserved k) ↔
      (opField w = 0#2 ∧ cntField w ≠ 0#2) ∨ (opField w = 1#2 ∧ cntField w ≠ 0#2) ∨
      (opField w = 3#2 ∧ (cntField w ≠ 0#2 ∨ dataField w ≠ 0#32)) := by
  rcases toNat_two_cases (opField w) with ho | ho | ho | ho
  · rw [decode_of_op_zero ho, ite_eq_reserved_iff]
    simp [ho]
  · rw [decode_of_op_one ho, ite_eq_reserved_iff]
    simp [ho]
  · rw [decode_of_op_two ho]
    simp [ho]
  · rw [decode_of_op_three ho, ite_eq_reserved_iff, not_and_or]
    simp [ho]

/-- A word is reserved exactly when no row of 30 R73 has its fields. -/
theorem decode_reserved_iff_no_row (w : CmdWord) :
    (∃ k, decode w = .reserved k) ↔
      ¬ (opField w = 0#2 ∧ cntField w = 0#2) ∧ ¬ (opField w = 1#2 ∧ cntField w = 0#2) ∧ ¬ opField w = 2#2 ∧
      ¬ (opField w = 3#2 ∧ cntField w = 0#2 ∧ dataField w = 0#32) := by
  rw [decode_reserved_iff]
  rcases toNat_two_cases (opField w) with ho | ho | ho | ho
  · simp [ho]
  · simp [ho]
  · simp [ho]
  · simp [ho, imp_iff_not_or]

/-! ### Operands (30 R72) -/

/-- The four lanes, in the order of the message offsets. -/
def lanes (w : CmdWord) : List Byte := [lane0 w, lane1 w, lane2 w, lane3 w]

/-- `Bj = CW[8j+7:8j]` -/
theorem lanes_getElem? (w : CmdWord) {j : Nat} (hj : j < 4) : (lanes w)[j]? = some (w.extractLsb' (8 * j) 8) := by
  match j, hj with
  | 0, _ => rfl
  | 1, _ => rfl
  | 2, _ => rfl
  | 3, _ => rfl

/-- `DATA` is its four lanes assembled. -/
theorem le_lanes (w : CmdWord) : le (lanes w) = dataField w := by
  apply BitVec.eq_of_getLsbD_eq
  intro i hi
  have hlane : (lanes w).getD (i / 8) 0 = w.extractLsb' (8 * (i / 8)) 8 := by
    rw [List.getD_eq_getElem?_getD, lanes_getElem? w (by omega), Option.getD_some]
  rw [getLsbD_le _ _ hi, hlane, BitVec.getLsbD_extractLsb', Nat.div_add_mod]
  simp [dataField, hi, Nat.mod_lt]

/-- No word gives a `TAIL` the fourth lane. -/
theorem take_lanes (w : CmdWord) (cnt : BitVec 2) :
    [lane0 w, lane1 w, lane2 w].take cnt.toNat = (lanes w).take cnt.toNat :=
  (List.take_append_of_le_length (l₂ := [lane3 w]) (Nat.le_of_lt_succ cnt.isLt)).symm

/-- `tailmask(cnt)` has its low `cnt` bytes set. -/
theorem getLsbD_tailmask (cnt : BitVec 2) {i : Nat} (hi : i < 32) :
    (tailmask cnt).getLsbD i = decide (i / 8 < cnt.toNat) := by
  revert cnt i
  decide

/-- Masking with `tailmask(cnt)` keeps the first `cnt` bytes. -/
theorem le_take (bs : List Byte) (cnt : BitVec 2) : le (bs.take cnt.toNat) = le bs &&& tailmask cnt := by
  apply BitVec.eq_of_getLsbD_eq
  intro i hi
  rw [BitVec.getLsbD_and, getLsbD_le _ _ hi, getLsbD_le _ _ hi, getLsbD_tailmask cnt hi,
    List.getD_eq_getElem?_getD, List.getElem?_take]
  split
  · simp [*]
  · simp [*]

/-- The value of a `TAIL` is `DATA & tailmask(CNT)`. -/
theorem le_take_lanes (w : CmdWord) :
    le ([lane0 w, lane1 w, lane2 w].take (cntField w).toNat) = dataField w &&& tailmask (cntField w) := by
  rw [take_lanes, le_take, le_lanes]

theorem length_take_lanes (w : CmdWord) (cnt : BitVec 2) :
    ([lane0 w, lane1 w, lane2 w].take cnt.toNat).length = cnt.toNat :=
  List.length_take_of_le (Nat.le_of_lt_succ cnt.isLt)

/-! ### Masks (30 R73) -/

theorem pack_inj {op op' cnt cnt' : BitVec 2} {data data' : Word} :
    pack op cnt data = pack op' cnt' data' ↔ op = op' ∧ cnt = cnt' ∧ data = data' := by
  constructor
  · intro h
    have hop := congrArg opField h
    have hcnt := congrArg cntField h
    have hdata := congrArg dataField h
    rw [opField_pack, opField_pack] at hop
    rw [cntField_pack, cntField_pack] at hcnt
    rw [dataField_pack, dataField_pack] at hdata
    exact ⟨hop, hcnt, hdata⟩
  · rintro ⟨rfl, rfl, rfl⟩
    rfl

theorem pack_eq_of_fields {w : CmdWord} {op cnt : BitVec 2} {data : Word} (hop : opField w = op)
    (hcnt : cntField w = cnt) (hdata : dataField w = data) : pack op cnt data = w := by
  rw [← pack_fields w, hop, hcnt, hdata]

/-- The mask of `INIT` and of `BLOCK` tests `OP` and `CNT`. -/
theorem and_top_eq_iff (w : CmdWord) (op cnt : BitVec 2) :
    w &&& 0xF00000000 = pack op cnt 0#32 ↔ opField w = op ∧ cntField w = cnt := by
  rw [← pack_fields w, Laws.pack_and_top, pack_inj, pack_fields]
  simp

/-- The mask of `TAIL` tests `OP`. -/
theorem and_op_eq_iff (w : CmdWord) (op : BitVec 2) :
    w &&& 0xC00000000 = pack op 0#2 0#32 ↔ opField w = op := by
  rw [← pack_fields w, Laws.pack_and_op, pack_inj, pack_fields]
  simp

/-- The mask of `FINAL` tests the whole word. -/
theorem and_all_eq_iff (w : CmdWord) (op cnt : BitVec 2) (data : Word) :
    w &&& 0xFFFFFFFFF = pack op cnt data ↔ opField w = op ∧ cntField w = cnt ∧ dataField w = data := by
  have hall : w &&& 0xFFFFFFFFF = w := BitVec.and_allOnes
  rw [hall, ← pack_fields w, pack_inj, pack_fields]

theorem init_row_iff (w : CmdWord) : w &&& 0xF00000000 = 0x000000000 ↔ opField w = 0#2 ∧ cntField w = 0#2 :=
  and_top_eq_iff w 0#2 0#2

theorem block_row_iff (w : CmdWord) : w &&& 0xF00000000 = 0x400000000 ↔ opField w = 1#2 ∧ cntField w = 0#2 :=
  and_top_eq_iff w 1#2 0#2

theorem tail_row_iff (w : CmdWord) : w &&& 0xC00000000 = 0x800000000 ↔ opField w = 2#2 :=
  and_op_eq_iff w 2#2

theorem final_row_iff (w : CmdWord) :
    w &&& 0xFFFFFFFFF = 0xC00000000 ↔ opField w = 3#2 ∧ cntField w = 0#2 ∧ dataField w = 0#32 :=
  and_all_eq_iff w 3#2 0#2 0#32

/-! ### The encoder (30 R78) -/

/-- Every well-formed command is decoded from its encoding. -/
theorem decode_encode (i : Instr) (hi : i.wf = true) : decode (encode i) = .command i := by
  cases i with
  | init seed => exact Laws.RoundTrip.init seed hi
  | block b0 b1 b2 b3 => exact Laws.RoundTrip.block b0 b1 b2 b3 hi
  | tail bs => exact Laws.RoundTrip.tail bs hi
  | final => exact Laws.RoundTrip.final hi

theorem clearIgnoredLanes_of_op_ne {w : CmdWord} (h : opField w ≠ 2#2) : clearIgnoredLanes w = w :=
  if_neg h

theorem clearIgnoredLanes_of_op_two {w : CmdWord} (h : opField w = 2#2) :
    clearIgnoredLanes w = pack 2#2 (cntField w) (dataField w &&& tailmask (cntField w)) := by
  rw [clearIgnoredLanes, if_pos h, h]

theorem and_eq_self_of_and_not_eq_zero {n : Nat} {x m : BitVec n} (h : x &&& ~~~m = 0#n) : x &&& m = x :=
  calc x &&& m = (x &&& m) ||| (x &&& ~~~m) := by rw [h, BitVec.or_zero]
    _ = x := by rw [← BitVec.and_or_distrib_left, BitVec.or_not_self, BitVec.and_allOnes]

/-- Nothing is cleared in a word that is no `TAIL` and in a `TAIL` whose ignored lanes are zero. -/
theorem clearIgnoredLanes_eq_self {w : CmdWord}
    (h : opField w ≠ 2#2 ∨ dataField w &&& ~~~tailmask (cntField w) = 0#32) : clearIgnoredLanes w = w := by
  by_cases ho : opField w = 2#2
  · have hdata := and_eq_self_of_and_not_eq_zero (h.resolve_left (not_not.mpr ho))
    rw [clearIgnoredLanes_of_op_two ho, hdata, pack_eq_of_fields ho rfl rfl]
  · exact clearIgnoredLanes_of_op_ne ho

/-- A decoded word is encoded with its ignored lanes cleared. -/
theorem encode_of_decode {w : CmdWord} {i : Instr} (h : decode w = .command i) : encode i = clearIgnoredLanes w := by
  rcases (decode_eq_command_iff w i).mp h with
    ⟨ho, hc, rfl⟩ | ⟨ho, hc, rfl⟩ | ⟨ho, rfl⟩ | ⟨ho, hc, hd, rfl⟩
  · rw [clearIgnoredLanes_of_op_ne (by simp [ho]), encode, pack_eq_of_fields ho hc rfl]
  · rw [clearIgnoredLanes_of_op_ne (by simp [ho]), encode_block]
    exact pack_eq_of_fields ho hc (le_lanes w).symm
  · rw [clearIgnoredLanes_of_op_two ho, encode, length_take_lanes, le_take_lanes, BitVec.ofNat_toNat,
      BitVec.setWidth_eq]
  · rw [clearIgnoredLanes_of_op_ne (by simp [ho]), encode, pack_eq_of_fields ho hc hd]

/-! ### Counting (30 R76) -/

/-- A word is a choice of its three fields. -/
def fieldsEquiv : CmdWord ≃ BitVec 2 × BitVec 2 × Word where
  toFun w := (opField w, cntField w, dataField w)
  invFun x := pack x.1 x.2.1 x.2.2
  left_inv := pack_fields
  right_inv x := by simp

/-- Words that meet a condition on each field are counted by the product. -/
theorem card_words_of_fields {P : CmdWord → Prop} (p q : BitVec 2 → Prop) (r : Word → Prop)
    (h : ∀ w, P w ↔ p (opField w) ∧ q (cntField w) ∧ r (dataField w)) :
    Nat.card { w // P w } = Nat.card { x // p x } * (Nat.card { x // q x } * Nat.card { x // r x }) := by
  have hfields : { w // P w } ≃ { x : BitVec 2 × BitVec 2 × Word // p x.1 ∧ q x.2.1 ∧ r x.2.2 } :=
    fieldsEquiv.subtypeEquiv h
  rw [Nat.card_congr hfields,
    Nat.card_congr (Equiv.subtypeProdEquivProd (q := fun x : BitVec 2 × Word => q x.1 ∧ r x.2)), Nat.card_prod,
    Nat.card_congr (Equiv.subtypeProdEquivProd (p := q) (q := r)), Nat.card_prod]

theorem natCard_bitVec (n : Nat) : Nat.card (BitVec n) = 2 ^ n := by
  rw [Nat.card_eq_fintype_card, ← FinEnum.card_eq_fintypeCard, FinEnum.card_bitVec]

theorem natCard_bitVec_ne {n : Nat} (a : BitVec n) : Nat.card { x // x ≠ a } = 2 ^ n - 1 := by
  rw [Nat.card_eq_fintype_card, Fintype.card_subtype_compl, ← Nat.card_eq_fintype_card, natCard_bitVec,
    Fintype.card_unique]

/-- The reserved words apart: those with a count, and those with `OP = 11` and no operand but data. -/
theorem decode_reserved_iff_count_or_data (w : CmdWord) :
    (∃ k, decode w = .reserved k) ↔
      (opField w ≠ 2#2 ∧ cntField w ≠ 0#2) ∨ (opField w = 3#2 ∧ cntField w = 0#2 ∧ dataField w ≠ 0#32) := by
  rw [decode_reserved_iff]
  rcases toNat_two_cases (opField w) with ho | ho | ho | ho
  · simp [ho]
  · simp [ho]
  · simp [ho]
  · by_cases hc : cntField w = 0#2 <;> simp [ho, hc]

theorem card_reserved_words :
    Nat.card { w : CmdWord // ∃ k, decode w = .reserved k } = 3 * 2 ^ 32 + 3 * 2 ^ 32 + (2 ^ 34 - 1) := by
  have hdisjoint : Disjoint (fun w : CmdWord => opField w ≠ 2#2 ∧ cntField w ≠ 0#2)
      (fun w => opField w = 3#2 ∧ cntField w = 0#2 ∧ dataField w ≠ 0#32) :=
    Pi.disjoint_iff.mpr fun w => Prop.disjoint_iff.mpr (by tauto)
  rw [Nat.card_congr (Equiv.subtypeEquivRight decode_reserved_iff_count_or_data),
    Nat.card_congr (subtypeOrEquiv _ _ hdisjoint), Nat.card_sum,
    card_words_of_fields (· ≠ 2#2) (· ≠ 0#2) (fun _ => True) (by simp),
    card_words_of_fields (· = 3#2) (· = 0#2) (· ≠ 0#32) fun _ => Iff.rfl]
  norm_num only [natCard_bitVec_ne, natCard_bitVec, Nat.card_unique, Nat.card_subtype_true]

/-- A word carries a tail exactly when the tail has at most three bytes. -/
theorem exists_decode_eq_tail_iff (bs : List Byte) : (∃ w, decode w = .command (.tail bs)) ↔ bs.length < 4 := by
  constructor
  · rintro ⟨w, hw⟩
    have hwf := decode_wf hw
    simp only [Instr.wf, decide_eq_true_eq] at hwf
    omega
  · intro hlen
    exact ⟨encode (.tail bs), decode_encode _ (decide_eq_true (Nat.le_of_lt_succ hlen))⟩

/-- A list of fewer than `n` members is a length and a list of that length. -/
def shortListEquiv (α : Type) (n : Nat) : { l : List α // l.length < n } ≃ (k : Fin n) × List.Vector α k where
  toFun l := ⟨⟨l.1.length, l.2⟩, ⟨l.1, rfl⟩⟩
  invFun x := ⟨x.2.1, x.2.2.symm ▸ x.1.2⟩
  left_inv _ := rfl
  right_inv := by
    rintro ⟨⟨k, hk⟩, ⟨l, hl⟩⟩
    obtain rfl : l.length = k := hl
    rfl

theorem card_short_lists (α : Type) [Fintype α] (n : Nat) :
    Nat.card { l : List α // l.length < n } = ∑ k : Fin n, Nat.card α ^ (k : Nat) := by
  rw [Nat.card_congr (shortListEquiv α n), Nat.card_sigma]
  simp only [Nat.card_eq_fintype_card, card_vector]

/-! ### Phases that drop words (60 R177) -/

/-- The phases 0 to 3 drop nothing. -/
theorem drops_of_phaseNamed {s : State} (hnamed : s.PhaseNamed) (hfault : s.phase ≠ .fault) :
    drops s.phase = false := by
  rw [State.PhaseNamed] at hnamed
  revert hnamed hfault
  cases s.phase <;> decide

/-! ### The statements -/

/-- Settles O2: the words of 30 R78 are the definition of `encode`; the round trip is one lemma per command, and the converse
`encode_of_decode`, with nothing to clear where the ignored lanes are zero. -/
theorem decodeEncodeAgree : Obligations.DecodeEncodeAgree :=
  ⟨fun _ => rfl, fun _ _ _ _ => rfl, fun _ _ => rfl, rfl, decode_encode, fun _ _ h =>
    ⟨encode_of_decode h, fun hlanes => (encode_of_decode h).trans (clearIgnoredLanes_eq_self hlanes)⟩⟩

/-- Settles O3: a mask and a match test the fields that 30 R73 names, and so does the decoder. -/
theorem rowsSelectWords : Obligations.RowsSelectWords := by
  intro w
  simp only [ne_eq, init_row_iff, block_row_iff, tail_row_iff, final_row_iff]
  refine ⟨?_, ?_, ?_, (decode_eq_final_iff w).symm, decode_reserved_iff_no_row w⟩
  · rw [decode_eq_init_iff]
    simp [dataField]
  · rw [decode_eq_block_iff]
    simp [lane0, lane1, lane2, lane3]
  · rw [decode_eq_tail_iff]
    simp [lane0, lane1, lane2, cntField]

/-- Settles O4: in the phases 0 to 3 the word is not dropped, in `FAULT` it is, and a fault entry leaves `H` and `LEN`. -/
theorem reservedWordsFault : Obligations.ReservedWordsFault := by
  intro w s
  refine ⟨decode_reserved_iff w, ?_⟩
  rintro ⟨k, hk⟩
  rw [accept_of_reserved hk]
  refine ⟨fun hnamed hfault => ?_, fun hfault => ?_, fun t ht => ?_⟩
  · have hd : drops s.phase = false := drops_of_phaseNamed hnamed hfault
    rw [acceptReserved, if_neg (by simp [hd])]
    rfl
  · rw [acceptReserved, if_pos (by simp [hfault, drops])]
  · rcases acceptReserved_cases ht with ⟨-, rfl⟩ | ⟨-, rfl⟩
    · exact ⟨rfl, rfl⟩
    · exact ⟨raiseFault_h _ s, raiseFault_len _ s⟩

/-- Settles O6: a kind of word is a condition on each field, so its words are counted by a product; a tail is any list of
at most three bytes. -/
theorem wordsOfEachKind : Obligations.WordsOfEachKind := by
  refine ⟨?_, ?_, ?_, ?_, ?_, ?_, by norm_num⟩
  · rw [card_words_of_fields (· = 0#2) (· = 0#2) (fun _ => True) (by simp [decode_eq_init_iff])]
    norm_num only [natCard_bitVec, Nat.card_unique, Nat.card_subtype_true]
  · rw [card_words_of_fields (· = 1#2) (· = 0#2) (fun _ => True) (by simp [decode_eq_block_iff])]
    norm_num only [natCard_bitVec, Nat.card_unique, Nat.card_subtype_true]
  · rw [card_words_of_fields (· = 2#2) (fun _ => True) (fun _ => True) (by simp [decode_eq_tail_iff])]
    norm_num only [natCard_bitVec, Nat.card_unique, Nat.card_subtype_true]
  · rw [Nat.card_congr (Equiv.subtypeEquivRight exists_decode_eq_tail_iff), card_short_lists, natCard_bitVec]
    norm_num [Fin.sum_univ_four]
  · rw [card_words_of_fields (· = 3#2) (· = 0#2) (· = 0#32) decode_eq_final_iff]
    norm_num only [natCard_bitVec, Nat.card_unique, Nat.card_subtype_true]
  · exact card_reserved_words

/-- Settles O7: the lanes are consecutive bytes of the word, `DATA` is their assembly, and a `TAIL` keeps the first `CNT`. -/
theorem operandsFromTheWord : Obligations.OperandsFromTheWord := by
  intro w
  refine ⟨fun seed h => ?_, fun b0 b1 b2 b3 h => ?_, fun bs h => ?_, by decide, by decide, by decide, by decide⟩
  · obtain ⟨-, -, hseed⟩ := (decode_eq_init_iff w seed).mp h
    exact hseed
  · obtain ⟨-, -, rfl, rfl, rfl, rfl⟩ := (decode_eq_block_iff w b0 b1 b2 b3).mp h
    exact ⟨rfl, rfl, rfl, rfl, le_lanes w⟩
  · obtain ⟨-, rfl⟩ := (decode_eq_tail_iff w bs).mp h
    refine ⟨length_take_lanes w _, fun j hj => ?_, le_take_lanes w⟩
    rw [length_take_lanes] at hj
    rw [take_lanes, List.getElem?_take_of_lt hj, lanes_getElem? w (by omega)]

end Sys2Proof.Proofs

/-! ## Proofs of the family 40_arithmetic: the rotation, and the datapath as a composition of bijections -/

namespace Sys2Proof.Proofs

open Sys2Proof.Machine

/-! ### The rotation (40 R93) -/

theorem rotl32_zero (x : Word) : rotl32 x 0 = x := if_pos rfl

theorem rotl32_of_pos (x : Word) {r : Nat} (hr : 1 ≤ r) : rotl32 x r = (x <<< r) ||| (x >>> (32 - r)) :=
  if_neg (Nat.ne_of_gt hr)

theorem rotl32_eq_rotateLeft (x : Word) {r : Nat} (hr : r ≤ 31) : rotl32 x r = x.rotateLeft r := by
  rcases Nat.eq_zero_or_pos r with rfl | hpos
  · simp [rotl32_zero, BitVec.rotateLeft_def, BitVec.ushiftRight_eq_zero (Nat.le_refl 32)]
  · rw [rotl32_of_pos x hpos, BitVec.rotateLeft_def, Nat.mod_eq_of_lt (Nat.lt_succ_of_le hr)]

/-- Bit `i` moves to bit `(i + r) mod 32`. -/
theorem getLsbD_rotl32 (x : Word) {r i : Nat} (hr : r ≤ 31) (hi : i < 32) :
    (rotl32 x r).getLsbD ((i + r) % 32) = x.getLsbD i := by
  rw [rotl32_eq_rotateLeft x hr, BitVec.getLsbD_rotateLeft, Nat.mod_eq_of_lt (Nat.lt_succ_of_le hr)]
  by_cases hwrap : i + r < 32
  · rw [Nat.mod_eq_of_lt hwrap]
    simp [hwrap]
  · have hmod : (i + r) % 32 = i + r - 32 := by omega
    have hlow : i + r - 32 < r := by omega
    have hback : 32 - r + (i + r - 32) = i := by omega
    simp [hmod, hlow, hback]

/-! ### The primitives are bijections (40 R98)

An injection of a finite type into itself is a bijection. -/

theorem bijective_rotl32 {r : Nat} (hr : r ≤ 31) : Function.Bijective fun x => rotl32 x r := by
  refine Function.Injective.bijective_of_finite fun x y hxy => BitVec.eq_of_getLsbD_eq fun i hi => ?_
  rw [← getLsbD_rotl32 x hr hi, ← getLsbD_rotl32 y hr hi]
  exact congrArg (BitVec.getLsbD · ((i + r) % 32)) hxy

/-- An odd factor is coprime to 2^32, so it cancels modulo 2^32. -/
theorem bijective_mul32_of_odd {c : Word} (hc : Odd c.toNat) : Function.Bijective fun x => mul32 x c := by
  refine Function.Injective.bijective_of_finite fun x y hxy => BitVec.eq_of_toNat_eq ?_
  have hcoprime : Nat.gcd (2 ^ 32) c.toNat = 1 := (Nat.coprime_two_left.mpr hc).pow_left 32
  have hmul : x.toNat * c.toNat ≡ y.toNat * c.toNat [MOD 2 ^ 32] := by
    rw [Nat.ModEq, ← BitVec.toNat_mul, ← BitVec.toNat_mul]
    exact congrArg BitVec.toNat hxy
  exact (hmul.cancel_right_of_coprime hcoprime).eq_of_lt_of_lt x.isLt y.isLt

theorem bijective_add32_const (c : Word) : Function.Bijective fun x => add32 x c := AddGroup.addRight_bijective c

theorem xor32_cancel_right (x c : Word) : xor32 (xor32 x c) c = x := by
  rw [xor32, xor32, BitVec.xor_assoc, BitVec.xor_self, BitVec.xor_zero]

theorem bijective_xor32_const (c : Word) : Function.Bijective fun x => xor32 x c :=
  Function.Involutive.bijective fun x => xor32_cancel_right x c

theorem bijective_const_xor32 (c : Word) : Function.Bijective (xor32 c) := by
  have hcomm : xor32 c = fun x => xor32 x c := funext fun x => BitVec.xor_comm c x
  exact hcomm ▸ bijective_xor32_const c

/-! ### The xor-shift (40 R98 (d)) -/

theorem xorShift_xor (x y : Word) (s : Nat) : xorShift (x ^^^ y) s = xorShift x s ^^^ xorShift y s := by
  simp only [xorShift, xor32, shr32, BitVec.ushiftRight_xor_distrib]
  ac_rfl

/-- A right shift by one or more makes every word but 0 smaller. -/
theorem eq_zero_of_xorShift_eq_zero {x : Word} {s : Nat} (hs : 1 ≤ s) (h : xorShift x s = 0#32) : x = 0#32 := by
  have hfix : x.toNat = x.toNat / 2 ^ s := by
    rw [← Nat.shiftRight_eq_div_pow, ← BitVec.toNat_ushiftRight]
    exact congrArg BitVec.toNat (BitVec.xor_eq_zero_iff.mp h)
  by_contra hx
  have hpos : 0 < x.toNat := Nat.pos_of_ne_zero fun h0 => hx (BitVec.eq_of_toNat_eq h0)
  exact (Nat.div_lt_self hpos (Nat.one_lt_two_pow (Nat.ne_of_gt hs))).ne' hfix

/-- The xor-shift is linear, and only 0 goes to 0. -/
theorem bijective_xorShift {s : Nat} (hs : 1 ≤ s) : Function.Bijective fun x => xorShift x s := by
  refine Function.Injective.bijective_of_finite fun x y hxy => BitVec.xor_eq_zero_iff.mp ?_
  apply eq_zero_of_xorShift_eq_zero hs
  rw [xorShift_xor]
  exact BitVec.xor_eq_zero_iff.mpr hxy

/-! ### The mixers are compositions of them -/

theorem bijective_scramble : Function.Bijective scramble :=
  (bijective_mul32_of_odd (c := constC2) (by decide)).comp
    ((bijective_rotl32 (r := constR1) (by decide)).comp (bijective_mul32_of_odd (c := constC1) (by decide)))

/-- What the block round does after the XOR of `h` and the scrambled block. -/
theorem bijective_rotate_multiply_add :
    Function.Bijective fun x => add32 (mul32 (rotl32 x constR2) constM5) constN0 :=
  (bijective_add32_const constN0).comp
    ((bijective_mul32_of_odd (c := constM5) (by decide)).comp (bijective_rotl32 (r := constR2) (by decide)))

theorem bijective_blockRound_h (k : Word) : Function.Bijective fun h => blockRound h k :=
  bijective_rotate_multiply_add.comp (bijective_xor32_const (scramble k))

theorem bijective_blockRound_k (h : Word) : Function.Bijective (blockRound h) :=
  bijective_rotate_multiply_add.comp ((bijective_const_xor32 h).comp bijective_scramble)

theorem bijective_fmix (n : Word) : Function.Bijective fun h => fmix h n :=
  (bijective_xorShift (s := constS3) (by decide)).comp <|
    (bijective_mul32_of_odd (c := constF2) (by decide)).comp <|
    (bijective_xorShift (s := constS2) (by decide)).comp <|
    (bijective_mul32_of_odd (c := constF1) (by decide)).comp <|
    (bijective_xorShift (s := constS1) (by decide)).comp (bijective_xor32_const n)

theorem scramble_zero : scramble 0 = 0 := by decide

theorem fmix_zero_zero : fmix 0 0 = 0 := by decide

/-! ### The statements -/

/-- Settles O10: the bit law is `getLsbD_rotl32`; the corner cases are the 32 amounts and the five words of 40 R93. -/
theorem rotationMovesBits : Obligations.RotationMovesBits := by
  refine ⟨fun x _ _ hr hi => getLsbD_rotl32 x hr hi, rotl32_zero, fun x _ hr _ => rotl32_of_pos x hr, ?_, ?_⟩
  · decide
  · decide

/-- Settles O11: each mixer is a composition of bijections, and 0 is the one argument that `fmix` of length 0 takes to 0. -/
theorem mixersAreBijections : Obligations.MixersAreBijections :=
  ⟨scramble_zero, bijective_scramble, bijective_blockRound_h, bijective_blockRound_k,
    fun _ hs _ => bijective_xorShift hs, bijective_fmix, fun _ => (bijective_fmix 0).injective.eq_iff' fmix_zero_zero⟩

end Sys2Proof.Proofs

/-! ## Proofs of the family 41_init: the state in which `INIT` leaves the unit -/

namespace Sys2Proof.Proofs

open Sys2Proof.Machine

theorem startOperation_eq (seed : Word) (s : State) :
    startOperation seed s = { h := seed, len := 0, phase := .absorb, errcode := .none, pins := s.pins } := rfl

theorem startOperation_phase_ne_done (seed : Word) (s : State) : (startOperation seed s).phase ≠ .done := by
  rw [startOperation_phase]
  decide

theorem resValid_of_not_done {s : State} (h : s.phase ≠ .done) : resValid s = false :=
  Bool.eq_false_iff.mpr (mt (resValid_iff s).mp h)

/-- A new operation shows `ABSORB` and `NONE` on `status` (10 R28). -/
theorem statusPort_startOperation (seed : Word) (s : State) : statusPort (startOperation seed s) = 0b00001 := by
  rw [statusPort, startOperation_phase, startOperation_errcode]
  decide

/-- Settles O13: the word is the encoding of the command, and `INIT` is not sequenced, so `startOperation` is its effect in every
phase; the ports show no result in `ABSORB`. -/
theorem initLoadsTheSeed : Obligations.InitLoadsTheSeed := by
  intro seed s
  have hnotDone := startOperation_phase_ne_done seed s
  exact ⟨decode_encode (.init seed) rfl, startOperation seed s, exec_init seed s, startOperation_eq seed s,
    resValid_of_not_done hnotDone, resData_of_not_done hnotDone, statusPort_startOperation seed s⟩

end Sys2Proof.Proofs

/-! ## Proofs of the family 42_block: `BLOCK` in every phase, and the block loop as a run of the unit -/

namespace Sys2Proof.Proofs

open Sys2Proof.Machine

/-! ### Commands other than `INIT`, by the outcome of the sequencing test (45 R152) -/

theorem exec_of_drops {i : Instr} {s : State} (hi : ∀ seed, i ≠ .init seed) (hd : drops s.phase = true) :
    exec i s = .next s := by
  rw [exec_of_not_init hi, sequenced_of_drops hd]

theorem exec_of_legal {i : Instr} {s : State} (hi : ∀ seed, i ≠ .init seed) (hd : drops s.phase = false)
    (hl : legal s.phase (.command i) = true) : exec i s = .next (effectOf i s) := by
  rw [exec_of_not_init hi, sequenced_of_legal hd hl]

theorem exec_of_illegal {i : Instr} {s : State} (hi : ∀ seed, i ≠ .init seed) (hd : drops s.phase = false)
    (hl : legal s.phase (.command i) = false) : exec i s = .next (raiseFault .outOfSequence s) := by
  rw [exec_of_not_init hi, sequenced_of_illegal hd hl]

theorem raiseFault_eq (c : ErrCode) (s : State) : raiseFault c s = { s with phase := .fault, errcode := c } := rfl

/-! ### One `BLOCK` (42 R121) -/

/-- Off `ABSORB`, in a phase that drops nothing, a `BLOCK` faults. -/
theorem exec_block_of_not_absorb (b0 b1 b2 b3 : Byte) {s : State} (hd : drops s.phase = false)
    (hs : s.phase ≠ .absorb) : exec (.block b0 b1 b2 b3) s = .next (raiseFault .outOfSequence s) :=
  exec_of_illegal nofun hd (decide_eq_false hs)

/-- In `ABSORB` the write of `PHASE` changes nothing. -/
theorem absorbBlock_eq (k : Word) {s : State} (hs : s.phase = .absorb) :
    absorbBlock k s = { s with h := blockRound s.h k, len := s.len + 4 } := by
  cases s
  subst hs
  simp only [absorbBlock, State.setH, State.setLen, State.setPhase, add32]

theorem exec_block_of_absorb (b0 b1 b2 b3 : Byte) (s : State) (hs : s.phase = .absorb) :
    exec (.block b0 b1 b2 b3) s =
      .next { s with h := blockRound s.h (blockValue b0 b1 b2 b3), len := s.len + 4 } := by
  have hd : drops s.phase = false := (drops_eq_false_iff _).mpr (.inr (.inl hs))
  have hl : legal s.phase (.command (.block b0 b1 b2 b3)) = true := decide_eq_true hs
  rw [exec_of_legal (by simp) hd hl, effectOf, absorbBlock_eq _ hs]

/-- `block_round` with `scramble` and the constants written out (40 R95, R97, 42 R120). -/
theorem blockRound_eq (h k : Word) :
    blockRound h k =
      ((h ^^^ ((k * 0xcc9e2d51#32).rotateLeft 15 * 0x1b873593#32)).rotateLeft 13) * 5#32 + 0xe6546b64#32 := by
  have hscramble : scramble k = (k * 0xcc9e2d51#32).rotateLeft 15 * 0x1b873593#32 := by
    rw [scramble, rotl32_eq_rotateLeft _ (by decide)]
    rfl
  rw [blockRound, hscramble, rotl32_eq_rotateLeft _ (by decide)]
  rfl

/-! ### Runs over encoded commands (45 R153) -/

theorem andThen_assoc {ρ σ τ : Type} (o : Host.Outcome ρ Fault Refusal) (f : ρ → Host.Outcome σ Fault Refusal)
    (g : σ → Host.Outcome τ Fault Refusal) : andThen (andThen o f) g = andThen o fun s => andThen (f s) g := by
  cases o with
  | next s => rfl
  | fault r => rfl
  | refused r => rfl

theorem runWords_append (ws ws' : List CmdWord) (s : State) :
    runWords (ws ++ ws') s = andThen (runWords ws s) (runWords ws') := by
  induction ws generalizing s with
  | nil => rfl
  | cons w ws ih =>
    rw [List.cons_append, runWords, runWords, andThen_assoc]
    exact congrArg (andThen (accept w s)) (funext ih)

theorem accept_encode {i : Instr} (hi : i.wf = true) (s : State) : accept (encode i) s = exec i s :=
  accept_of_command (decode_encode i hi) s

theorem runWords_encode_singleton {i : Instr} (hi : i.wf = true) (s : State) :
    runWords [encode i] s = exec i s := by
  rw [runWords, accept_encode hi]
  cases exec i s with
  | next t => rfl
  | fault r => rfl
  | refused r => rfl

/-! ### The block loop (42 R122) -/

theorem blockLoop_succ (data : List Byte) (n : Nat) (seed : Word) :
    blockLoop data (n + 1) seed = blockRound (blockLoop data n seed) (messageBlock data n) := by
  rw [blockLoop, List.range_succ, List.foldl_append]
  rfl

theorem exec_blockCommand (data : List Byte) (i : Nat) (s : State) (hs : s.phase = .absorb) :
    exec (blockCommand data i) s = .next { s with h := blockRound s.h (messageBlock data i), len := s.len + 4 } :=
  exec_block_of_absorb _ _ _ _ s hs

/-- The loop invariant: from `ABSORB`, after `n` blocks of a message, `H` is the block loop over them, `LEN` has advanced by
`4 * n`, and the rest is as before. -/
theorem runWords_blocks (data : List Byte) (n : Nat) {s : State} (hs : s.phase = .absorb) :
    runWords (((List.range n).map (blockCommand data)).map encode) s =
      .next { s with h := blockLoop data n s.h, len := s.len + BitVec.ofNat 32 (4 * n) } := by
  induction n with
  | zero => simp [runWords, blockLoop]
  | succ n ih =>
    have hlen : s.len + BitVec.ofNat 32 (4 * n) + 4 = s.len + BitVec.ofNat 32 (4 * (n + 1)) := by
      rw [Nat.mul_succ, BitVec.ofNat_add, BitVec.add_assoc]
      rfl
    rw [List.range_succ, List.map_append, List.map_append, runWords_append, ih, andThen_next, List.map_singleton,
      List.map_singleton, runWords_encode_singleton rfl, exec_blockCommand, hlen, blockLoop_succ]
    exact hs

/-- `INIT` and the blocks of a message, from any state. -/
theorem runWords_init_blocks (s : State) (seed : Word) (data : List Byte) :
    runWords ((Instr.init seed :: blockCommands data).map encode) s = .next
      { h := blockLoop data (nblocks data) seed, len := BitVec.ofNat 32 (4 * nblocks data), phase := .absorb,
        errcode := .none, pins := s.pins } := by
  rw [List.map_cons, runWords, accept_encode rfl, exec_init, andThen_next, blockCommands,
    runWords_blocks data _ (startOperation_phase seed s)]
  simp only [startOperation_h, startOperation_len, startOperation_phase, startOperation_errcode, startOperation_pins,
    BitVec.ofNat_eq_ofNat, BitVec.zero_add]

/-! ### What the blocks read -/

theorem byteAt_take (data : List Byte) {m j : Nat} (hj : j < m) : byteAt (data.take m) j = byteAt data j := by
  rw [byteAt, byteAt, List.getD_eq_getElem?_getD, List.getD_eq_getElem?_getD, List.getElem?_take_of_lt hj]

/-- Block `i` reads nothing at or above offset `4 * n` when `i < n`. -/
theorem blockCommand_take (data : List Byte) {n i : Nat} (hi : i < n) :
    blockCommand (data.take (4 * n)) i = blockCommand data i := by
  rw [blockCommand, byteAt_take, byteAt_take, byteAt_take, byteAt_take, blockCommand] <;> omega

/-- The blocks of a message are those of its first `4 * nblocks` bytes. -/
theorem blockCommands_eq_of_take (data : List Byte) :
    blockCommands data = (List.range (nblocks data)).map (blockCommand (data.take (4 * nblocks data))) :=
  List.map_congr_left fun _ hi => (blockCommand_take data (List.mem_range.mp hi)).symm

/-! ### The statements -/

/-- Settles O14: the word is the encoding of the command, and the sequencing test gives one outcome in `ABSORB`, one in `FAULT`, and
one in the other three phases. -/
theorem blockAbsorbsFourBytes : Obligations.BlockAbsorbsFourBytes := by
  intro b0 b1 b2 b3 s
  refine ⟨decode_encode (.block b0 b1 b2 b3) rfl, fun hs => ?_, fun hs => ?_, fun hs => ?_⟩
  · rw [exec_block_of_absorb b0 b1 b2 b3 s hs, blockRound_eq, blockValue, le_four]
  · have hd : drops s.phase = false := (drops_eq_false_iff _).mpr (by tauto)
    have hne : s.phase ≠ .absorb := fun e => by simp [e] at hs
    rw [exec_block_of_not_absorb b0 b1 b2 b3 hd hne, raiseFault_eq]
  · exact exec_of_drops nofun (by rw [hs]; rfl)

/-- Settles O42: the run is `runWords_init_blocks`, whose `blockLoop` is the fold of the statement; the same first `4 * nblocks`
bytes give the same commands. Protected, so that the short name stays the model's `blockLoop`. -/
protected theorem blockLoop : Obligations.BlockLoop := by
  refine ⟨runWords_init_blocks, fun s seed data data' hcount htake => ?_⟩
  have hblocks : blockCommands data = blockCommands data' := by
    rw [blockCommands_eq_of_take data, blockCommands_eq_of_take data', nblocks, nblocks, htake, hcount]
  rw [hblocks]

end Sys2Proof.Proofs

/-! ## Proofs of the family 43_tail: `TAIL` in every phase and for every count, and the empty tail -/

namespace Sys2Proof.Proofs

open Sys2Proof.Machine

/-! ### Assembled tails (43 R130): missing bytes are zero -/

theorem le_append_zero (bs : List Byte) : le (bs ++ [0]) = le bs := by
  induction bs with
  | nil => decide
  | cons b bs ih => rw [List.cons_append, le_cons, le_cons, ih]

theorem le_three (b0 b1 b2 : Byte) : le [b0, b1, b2] = 0#8 ++ b2 ++ b1 ++ b0 :=
  (le_append_zero [b0, b1, b2]).symm.trans (le_four b0 b1 b2 0)

theorem le_two (b0 b1 : Byte) : le [b0, b1] = 0#16 ++ b1 ++ b0 :=
  (le_append_zero [b0, b1]).symm.trans (le_three b0 b1 0)

theorem le_one (b0 : Byte) : le [b0] = 0#24 ++ b0 :=
  (le_append_zero [b0]).symm.trans (le_two b0 0)

/-! ### The tail round (43 R131) -/

/-- `scramble` with the constants written out (40 R95, R97). -/
theorem scramble_eq (k : Word) : scramble k = (k * 0xcc9e2d51#32).rotateLeft 15 * 0x1b873593#32 := by
  rw [scramble, rotl32_eq_rotateLeft _ (by decide)]
  rfl

theorem tailRound_eq (h k : Word) :
    tailRound h k = h ^^^ ((k * 0xcc9e2d51#32).rotateLeft 15 * 0x1b873593#32) := by
  rw [tailRound, scramble_eq, xor32]

/-- No bytes assemble to 0, and `scramble` takes 0 to 0 (43 R133). -/
theorem tailRound_nil (h : Word) : tailRound h (tailAssemble []) = h := by
  have hscramble : scramble (tailAssemble []) = 0 := scramble_zero
  rw [tailRound, hscramble, xor32]
  exact BitVec.xor_zero

/-! ### One `TAIL` (43 R132) -/

theorem absorbTail_eq (bs : List Byte) (s : State) :
    absorbTail bs s =
      { s with h := tailRound s.h (le bs), len := s.len + BitVec.ofNat 32 bs.length, phase := .tailed } := by
  simp only [absorbTail, State.setH, State.setLen, State.setPhase, add32, tailAssemble, tailCount]

/-- The empty tail moves the phase and nothing else. -/
theorem absorbTail_nil (s : State) : absorbTail [] s = s.setPhase .tailed := by
  have hh : tailRound s.h (le []) = s.h := tailRound_nil s.h
  have hlen : s.len + BitVec.ofNat 32 ([] : List Byte).length = s.len := BitVec.add_zero s.len
  rw [absorbTail_eq, hh, hlen, State.setPhase]

theorem exec_tail_of_absorb (bs : List Byte) {s : State} (hs : s.phase = .absorb) :
    exec (.tail bs) s = .next (absorbTail bs s) := by
  have hd : drops s.phase = false := (drops_eq_false_iff _).mpr (.inr (.inl hs))
  have hl : legal s.phase (.command (.tail bs)) = true := decide_eq_true hs
  rw [exec_of_legal (by simp) hd hl, effectOf]

/-- Off `ABSORB`, in a phase that drops nothing, a `TAIL` faults. -/
theorem exec_tail_of_not_absorb (bs : List Byte) {s : State} (hd : drops s.phase = false)
    (hs : s.phase ≠ .absorb) : exec (.tail bs) s = .next (raiseFault .outOfSequence s) :=
  exec_of_illegal nofun hd (decide_eq_false hs)

/-! ### `FINAL` after the empty tail (43 R133) -/

/-- `FINAL` is in sequence with a tail before it and without one (44 R141). -/
theorem exec_final_of_absorb_or_tailed {s : State} (hs : s.phase = .absorb ∨ s.phase = .tailed) :
    exec .final s = .next (finalize s) := by
  have hd : drops s.phase = false := (drops_eq_false_iff _).mpr (by tauto)
  have hl : legal s.phase (.command .final) = true := decide_eq_true hs
  rw [exec_of_legal (by simp) hd hl, effectOf]

theorem setPhase_setH_setPhase (p q : Phase) (v : Word) (s : State) :
    ((s.setPhase p).setH v).setPhase q = (s.setH v).setPhase q := rfl

/-- The finalization does not read the phase. -/
theorem finalize_setPhase (p : Phase) (s : State) : finalize (s.setPhase p) = finalize s := by
  rw [finalize, State.setPhase_h, State.setPhase_len, setPhase_setH_setPhase, finalize]

/-! ### The statements -/

/-- Settles O15: an `OP` of 10 leaves the decoder one row, and the sequencing test gives one outcome in `ABSORB`, one in `FAULT`,
and one in the other three phases; in `ABSORB` the counts differ by the value assembled. -/
theorem tailAbsorbsTheRest : Obligations.TailAbsorbsTheRest := by
  refine ⟨fun w hop => ⟨_, decode_of_op_two hop, length_take_lanes w _⟩, fun s =>
    ⟨fun hs => ?_, fun bs _ => ⟨fun hs => ?_, fun hs => ?_⟩⟩⟩
  · refine ⟨?_, fun b0 => ?_, fun b0 b1 => ?_, fun b0 b1 b2 => ?_⟩
    · rw [exec_tail_of_absorb [] hs, absorbTail_nil, State.setPhase]
    · rw [exec_tail_of_absorb [b0] hs, absorbTail_eq, tailRound_eq, le_one]
      rfl
    · rw [exec_tail_of_absorb [b0, b1] hs, absorbTail_eq, tailRound_eq, le_two]
      rfl
    · rw [exec_tail_of_absorb [b0, b1, b2] hs, absorbTail_eq, tailRound_eq, le_three]
      rfl
  · have hd : drops s.phase = false := (drops_eq_false_iff _).mpr (by tauto)
    have hne : s.phase ≠ .absorb := fun e => by simp [e] at hs
    rw [exec_tail_of_not_absorb bs hd hne, raiseFault_eq]
  · exact exec_of_drops nofun (by rw [hs]; rfl)

/-- Settles O17: the empty tail moves the phase alone, to one from which `FINAL` is in sequence too, and the finalization does not
read the phase. -/
theorem emptyTailChangesNothing : Obligations.EmptyTailChangesNothing := by
  refine ⟨scramble_zero, tailRound_nil, fun s hs => ?_⟩
  have hfinal : runWords [encode .final] s = .next (finalize s) := by
    rw [runWords_encode_singleton rfl, exec_final_of_absorb_or_tailed (.inl hs)]
  refine ⟨?_, finalize s, hfinal, finalize_phase s⟩
  have htailed : (s.setPhase .tailed).phase = .tailed := State.setPhase_phase s .tailed
  rw [hfinal, runWords, accept_encode rfl, exec_tail_of_absorb [] hs, absorbTail_nil, andThen_next,
    runWords_encode_singleton rfl, exec_final_of_absorb_or_tailed (.inr htailed), finalize_setPhase]

end Sys2Proof.Proofs

/-! ## Proofs of the family 44_final: what the finalization sees, and `FINAL` in every phase -/

namespace Sys2Proof.Proofs

open Sys2Proof.Machine

/-! ### The finalization (44 R140) -/

/-- The length enters by the first XOR and nowhere else. -/
theorem fmix_eq_fmix_xor_zero (h n : Word) : fmix h n = fmix (h ^^^ n) 0 := by
  have hxor : xor32 (h ^^^ n) 0 = xor32 h n := BitVec.xor_zero
  rw [fmix, fmix, hxor]

/-- The finalization does this twice. -/
theorem mul32_xorShift_eq (x c : Word) (s : Nat) : mul32 (xorShift x s) c = (x ^^^ (x >>> s)) * c := by
  rw [mul32, xorShift, xor32, shr32]

/-- The steps of 44 R140, one value each. -/
theorem fmix_eq_of_steps {h n a b c d e f : Word} (ha : a = h ^^^ n) (hb : b = a ^^^ (a >>> 16))
    (hc : c = b * 0x85ebca6b) (hd : d = c ^^^ (c >>> 13)) (he : e = d * 0xc2b2ae35)
    (hf : f = e ^^^ (e >>> 16)) : fmix h n = f := by
  have hfirst : mul32 (xorShift a constS1) constF1 = c := by
    rw [mul32_xorShift_eq, constS1, constF1, ← hb, ← hc]
  have hsecond : mul32 (xorShift c constS2) constF2 = e := by
    rw [mul32_xorShift_eq, constS2, constF2, ← hd, ← he]
  rw [fmix, xor32, ← ha, hfirst, hsecond, xorShift, xor32, shr32, constS3, ← hf]

/-! ### The state `FINAL` leaves (44 R141) -/

theorem finalize_eq (s : State) : finalize s = { s with h := fmix s.h s.len, phase := .done } := by
  rw [finalize, State.setH, State.setPhase]

theorem resData_finalize (s : State) : resData (finalize s) = fmix s.h s.len := by
  rw [resData_of_done (finalize_phase s), finalize_h]

/-- `FINAL` shows `DONE` on `status` with the code it found (10 R28). -/
theorem statusPort_finalize (s : State) : statusPort (finalize s) = errBits s.errcode ++ 0b011#3 := by
  rw [statusPort, finalize_phase, finalize_errcode]
  rfl

/-- Off `ABSORB` and `TAILED`, in a phase that drops nothing, a `FINAL` faults. -/
theorem exec_final_of_not_absorb_or_tailed {s : State} (hd : drops s.phase = false)
    (hs : ¬ (s.phase = .absorb ∨ s.phase = .tailed)) : exec .final s = .next (raiseFault .outOfSequence s) :=
  exec_of_illegal nofun hd (decide_eq_false hs)

/-! ### The statements -/

/-- Settles O12: both finalizations are those of the XOR with length 0, and a bijection keeps arguments apart. -/
theorem finalizationSeesOnlyTheXor : Obligations.FinalizationSeesOnlyTheXor := by
  refine ⟨bijective_fmix, fun h n h' n' => ?_⟩
  rw [fmix_eq_fmix_xor_zero h n, fmix_eq_fmix_xor_zero h' n']
  exact (bijective_fmix 0).injective.eq_iff

/-- Settles O16: the word is the encoding of the command, and the sequencing test gives one outcome in `ABSORB` and `TAILED`, one in
`IDLE` and `DONE`, and one in `FAULT`; in sequence, the values written out are the steps of `fmix`. -/
theorem finalPublishesTheResult : Obligations.FinalPublishesTheResult := by
  refine ⟨decode_encode .final rfl, fun s => ⟨fun hs => ?_, fun hs => ?_, fun hs => ?_⟩⟩
  · refine ⟨finalize s, exec_final_of_absorb_or_tailed hs, fun a b c d e f ha hb hc hd he hf => ?_,
      (resValid_iff _).mpr (finalize_phase s), fun hcode => ?_⟩
    · have hfmix : fmix s.h s.len = f := fmix_eq_of_steps ha hb hc hd he hf
      rw [resData_finalize, finalize_eq, hfmix]
      exact ⟨rfl, rfl⟩
    · rw [statusPort_finalize, hcode]
      decide
  · have hd : drops s.phase = false := (drops_eq_false_iff _).mpr (by tauto)
    have hne : ¬ (s.phase = .absorb ∨ s.phase = .tailed) := by
      rcases hs with e | e <;> simp [e]
    rw [exec_final_of_not_absorb_or_tailed hd hne, raiseFault_eq]
  · exact exec_of_drops nofun (by rw [hs]; rfl)

end Sys2Proof.Proofs

/-! ## Proofs of the family 45_sequencing_and_hash: legality, runs over presented words, the hash as a run and back -/

namespace Sys2Proof.Proofs

open Sys2Proof.Machine

/-- Settles O20: each kind of command has its row, and a reserved word has none. -/
theorem legalPhases : Obligations.LegalPhases := by
  intro p c
  cases c with
  | reserved k => simp [legal]
  | command i =>
    cases i with
    | init seed => simp [legal]
    | block b0 b1 b2 b3 => simp [legal]
    | tail bs => simp [legal]
    | final => simp [legal]

/-! ### Runs over presented words (45 R153) -/

theorem andThen_eq_next {σ τ : Type} {o : Host.Outcome σ Fault Refusal} {f : σ → Host.Outcome τ Fault Refusal} {t : τ}
    (h : andThen o f = .next t) : ∃ u, o = .next u ∧ f u = .next t := by
  cases o with
  | next u => exact ⟨u, rfl, h⟩
  | fault r => cases h
  | refused r => cases h

@[simp] theorem presenting_h (s : State) (ws : List CmdWord) : (s.presenting ws).h = s.h := State.setPins_h s _

@[simp] theorem presenting_len (s : State) (ws : List CmdWord) : (s.presenting ws).len = s.len := State.setPins_len s _

@[simp] theorem presenting_phase (s : State) (ws : List CmdWord) : (s.presenting ws).phase = s.phase := State.setPins_phase s _

@[simp] theorem presenting_errcode (s : State) (ws : List CmdWord) : (s.presenting ws).errcode = s.errcode :=
  State.setPins_errcode s _

@[simp] theorem presenting_pins (s : State) (ws : List CmdWord) : (s.presenting ws).pins = ws.map present ++ s.pins :=
  State.setPins_pins s _

theorem state_eq_of_fields {s t : State} (hh : s.h = t.h) (hlen : s.len = t.len) (hphase : s.phase = t.phase)
    (hcode : s.errcode = t.errcode) (hpins : s.pins = t.pins) : s = t := by
  cases s
  cases t
  exact State.mk.injEq .. ▸ ⟨hh, hlen, hphase, hcode, hpins⟩

/-- An effect neither reads nor writes the pins. -/
theorem effectOf_presenting (i : Instr) (ws : List CmdWord) (s : State) :
    effectOf i (s.presenting ws) = (effectOf i s).presenting ws := by
  cases i with
  | init seed => rfl
  | block b0 b1 b2 b3 => apply state_eq_of_fields <;> simp [effectOf]
  | tail bs => apply state_eq_of_fields <;> simp [effectOf]
  | final => apply state_eq_of_fields <;> simp [effectOf]

/-- What the host presents next does not matter to the word accepted now. -/
theorem accept_presenting {w : CmdWord} {s t : State} (h : accept w s = .next t) (ws : List CmdWord) :
    accept w (s.presenting ws) = .next (t.presenting ws) := by
  have hphase := presenting_phase s ws
  rcases accept_cases h with
    ⟨seed, hw, rfl⟩ | ⟨hw, hd, rfl⟩ | ⟨i, hw, hi, hd, hl, rfl⟩ | ⟨i, hw, hi, hd, hl, rfl⟩ | ⟨k, hw, hd, rfl⟩
  · rw [accept_of_command hw, exec_init]
    rfl
  · exact accept_of_drops hw (hphase ▸ hd)
  · rw [accept_of_command hw, exec_of_legal hi (hphase ▸ hd) (hphase ▸ hl), effectOf_presenting]
  · rw [accept_of_command hw, exec_of_illegal hi (hphase ▸ hd) (hphase ▸ hl)]
    rfl
  · rw [accept_of_reserved hw, acceptReserved, hphase, hd]
    rfl

theorem step_presenting_cons (w : CmdWord) (ws : List CmdWord) (s : State) :
    step (s.presenting (w :: ws)) = accept w (s.presenting ws) :=
  step_of_cons (presenting_pins s (w :: ws))

theorem run_succ_of_next {M : Host.Core} {s t : M.State} (h : M.step s = .next t) (n : Nat) :
    M.run (n + 1) s = M.run n t := by
  rw [Host.Core.run, h]

theorem runWords_cons_eq_next {w : CmdWord} {ws : List CmdWord} {s t : State} (h : runWords (w :: ws) s = .next t) :
    ∃ u, accept w s = .next u ∧ runWords ws u = .next t :=
  andThen_eq_next h

/-- The core takes the presented words one by one, as `runWords` does, and leaves the words after them presented. -/
theorem run_presenting_append {ws : List CmdWord} {s t : State} (h : runWords ws s = .next t) (ws' : List CmdWord) :
    core.run ws.length (s.presenting (ws ++ ws')) = .next (t.presenting ws') := by
  induction ws generalizing s with
  | nil => exact congrArg (fun u : State => Host.Outcome.next (u.presenting ws')) (Host.Outcome.next.inj h)
  | cons w ws ih =>
    obtain ⟨u, hw, hrun⟩ := runWords_cons_eq_next h
    have hstep : core.step (s.presenting (w :: (ws ++ ws'))) = .next (u.presenting (ws ++ ws')) :=
      (step_presenting_cons w (ws ++ ws') s).trans (accept_presenting hw (ws ++ ws'))
    exact (run_succ_of_next hstep ws.length).trans (ih hrun)

theorem run_presenting {ws : List CmdWord} {s t : State} (h : runWords ws s = .next t) :
    core.run ws.length (s.presenting ws) = .next t := by
  have hrun := run_presenting_append h []
  rw [List.append_nil] at hrun
  exact hrun

/-! ### The hash as a run (45 R157) -/

/-- The state after `INIT` and the blocks of a message. -/
def afterBlocks (seed : Word) (data : List Byte) (s : State) : State :=
  { h := blockLoop data (nblocks data) seed, len := BitVec.ofNat 32 (4 * nblocks data), phase := .absorb,
    errcode := .none, pins := s.pins }

theorem runWords_afterBlocks (seed : Word) (data : List Byte) (s : State) :
    runWords (([Instr.init seed] ++ blockCommands data).map encode) s = .next (afterBlocks seed data s) :=
  runWords_init_blocks s seed data

/-- The state after the whole of `drive(seed, data)`. -/
def afterDrive (seed : Word) (data : List Byte) (s : State) : State :=
  finalize (absorbTail (messageTail data) (afterBlocks seed data s))

theorem length_messageTail (data : List Byte) : (messageTail data).length = data.length % 4 := by
  rw [messageTail, List.length_map, List.length_range]

theorem wf_messageTail (data : List Byte) : (Instr.tail (messageTail data)).wf = true := by
  have hlen := length_messageTail data
  exact decide_eq_true (by omega)

theorem runWords_tail_final {bs : List Byte} (hbs : (Instr.tail bs).wf = true) {s : State} (hs : s.phase = .absorb) :
    runWords [encode (.tail bs), encode .final] s = .next (finalize (absorbTail bs s)) := by
  rw [runWords, accept_encode hbs, exec_tail_of_absorb bs hs, andThen_next, runWords_encode_singleton rfl,
    exec_final_of_absorb_or_tailed (.inr (absorbTail_phase bs s))]

theorem runWords_drive (seed : Word) (data : List Byte) (s : State) :
    runWords (drive seed data) s = .next (afterDrive seed data s) := by
  rw [drive, driveCommands, List.map_append, runWords_append, runWords_afterBlocks, andThen_next]
  exact runWords_tail_final (wf_messageTail data) rfl

/-- A message of whole blocks has an empty tail, which changes nothing (43 R133). -/
theorem runWords_driveShort (seed : Word) (data : List Byte) (s : State) :
    runWords (driveShort seed data) s = .next (afterDrive seed data s) := by
  rw [driveShort, driveShortCommands]
  split
  case isTrue hfull =>
    have htail : messageTail data = [] := List.eq_nil_of_length_eq_zero ((length_messageTail data).trans hfull)
    rw [List.map_append, runWords_append, runWords_afterBlocks, andThen_next, List.map_singleton, runWords_encode_singleton rfl,
      exec_final_of_absorb_or_tailed (.inl rfl), afterDrive, htail, absorbTail_nil, finalize_setPhase]
  case isFalse => exact runWords_drive seed data s

/-- `LEN` counts the whole message: its blocks and its tail, modulo 2^32. -/
theorem add32_blocks_tail (data : List Byte) :
    add32 (BitVec.ofNat 32 (4 * nblocks data)) (tailCount (messageTail data)) = BitVec.ofNat 32 data.length := by
  rw [add32, tailCount, length_messageTail, ← BitVec.ofNat_add, nblocks, Nat.div_add_mod]

theorem result_finalize (s : State) : result (finalize s) = some (fmix s.h s.len) := by
  rw [result, if_pos (finalize_phase s), finalize_h]

theorem result_afterDrive (seed : Word) (data : List Byte) (s : State) :
    result (afterDrive seed data s) = some (hashFn seed data) := by
  rw [afterDrive, result_finalize, absorbTail_h, absorbTail_len, afterBlocks, add32_blocks_tail, hashFn]

theorem afterDrive_phase (seed : Word) (data : List Byte) (s : State) : (afterDrive seed data s).phase = .done :=
  finalize_phase _

theorem afterDrive_pins (seed : Word) (data : List Byte) (s : State) : (afterDrive seed data s).pins = s.pins := by
  rw [afterDrive, finalize_pins, absorbTail_pins, afterBlocks]

/-! ### Runs without an `INIT`: a fault stays, and ends every operation (60 R177) -/

/-- No word of the list decodes to an `INIT`. -/
def NoInit (ws : List CmdWord) : Prop := ∀ w ∈ ws, ∀ seed, decode w ≠ .command (.init seed)

theorem noInit_cons {w : CmdWord} {ws : List CmdWord} :
    NoInit (w :: ws) ↔ (∀ seed, decode w ≠ .command (.init seed)) ∧ NoInit ws :=
  List.forall_mem_cons

theorem runWords_of_fault {ws : List CmdWord} {s : State} (hws : NoInit ws) (hs : s.phase = .fault) :
    runWords ws s = .next s := by
  induction ws with
  | nil => rfl
  | cons w ws ih =>
    obtain ⟨hw, hws⟩ := noInit_cons.mp hws
    rw [runWords, accept_of_drops hw (by rw [hs]; rfl), andThen_next, ih hws]

/-- A run that ends in `DONE` without an `INIT` is in `FAULT` nowhere. -/
theorem phase_ne_fault_of_ends_done {ws : List CmdWord} {s t : State} (hws : NoInit ws)
    (h : runWords ws s = .next t) (ht : t.phase = .done) : s.phase ≠ .fault := by
  intro hs
  have hst : s = t := Host.Outcome.next.inj ((runWords_of_fault hws hs).symm.trans h)
  simp [← hst, hs] at ht

/-- In such a run the first word, in a phase that drops nothing, is a command in sequence. -/
theorem accept_of_ends_done {w : CmdWord} {ws : List CmdWord} {s t : State} (hws : NoInit (w :: ws))
    (hd : drops s.phase = false) (h : runWords (w :: ws) s = .next t) (ht : t.phase = .done) :
    ∃ i, decode w = .command i ∧ (∀ seed, i ≠ .init seed) ∧ legal s.phase (.command i) = true ∧
      runWords ws (effectOf i s) = .next t := by
  obtain ⟨hw, hws⟩ := noInit_cons.mp hws
  obtain ⟨u, hu, hrun⟩ := runWords_cons_eq_next h
  have hfault : u.phase ≠ .fault := phase_ne_fault_of_ends_done hws hrun ht
  rcases accept_cases hu with
    ⟨seed, hinit, -⟩ | ⟨-, hdrop, -⟩ | ⟨i, hi, hni, -, hl, rfl⟩ | ⟨i, -, -, -, -, rfl⟩ | ⟨k, -, -, rfl⟩
  · exact absurd hinit (hw seed)
  · simp [hd] at hdrop
  · exact ⟨i, hi, hni, hl, hrun⟩
  · exact absurd (raiseFault_phase _ _) hfault
  · exact absurd (raiseFault_phase _ _) hfault

/-! ### What a run from `ABSORB` to `DONE` delivers (45 R158) -/

/-- The `BLOCK` that carries four given bytes. -/
def blockOf (b : Byte × Byte × Byte × Byte) : Instr := .block b.1 b.2.1 b.2.2.1 b.2.2.2

/-- The bytes a `BLOCK` carries, in message order. -/
def blockBytes (b : Byte × Byte × Byte × Byte) : List Byte := [b.1, b.2.1, b.2.2.1, b.2.2.2]

/-- Blocks, at most one tail, `FINAL`. -/
def messageCommands (blocks : List (Byte × Byte × Byte × Byte)) (rest : Option (List Byte)) : List Instr :=
  blocks.map blockOf ++ rest.toList.map .tail ++ [.final]

/-- The bytes those commands carry. -/
def messageBytes (blocks : List (Byte × Byte × Byte × Byte)) (rest : Option (List Byte)) : List Byte :=
  blocks.flatMap blockBytes ++ rest.getD []

theorem eq_nil_of_done_ends_done {ws : List CmdWord} {s t : State} (hws : NoInit ws) (hs : s.phase = .done)
    (h : runWords ws s = .next t) (ht : t.phase = .done) : ws = [] := by
  cases ws with
  | nil => rfl
  | cons w ws =>
    obtain ⟨i, -, hi, hl, -⟩ := accept_of_ends_done hws (by rw [hs]; rfl) h ht
    simp [hs, legal_done_eq_false hi] at hl

theorem decode_of_tailed_ends_done {ws : List CmdWord} {s t : State} (hws : NoInit ws) (hs : s.phase = .tailed)
    (h : runWords ws s = .next t) (ht : t.phase = .done) : ws.map decode = [.command .final] := by
  cases ws with
  | nil => simp [← Host.Outcome.next.inj h, hs] at ht
  | cons w ws =>
    obtain ⟨i, hw, hi, hl, hrun⟩ := accept_of_ends_done hws (by rw [hs]; rfl) h ht
    obtain rfl : i = .final := by simpa [hs, hi] using (legalPhases _ _).mp hl
    have hnil : ws = [] := eq_nil_of_done_ends_done (noInit_cons.mp hws).2 (finalize_phase s) hrun ht
    rw [hnil, List.map_singleton, hw]

theorem decode_of_absorb_ends_done {ws : List CmdWord} {s t : State} (hws : NoInit ws) (hs : s.phase = .absorb)
    (h : runWords ws s = .next t) (ht : t.phase = .done) :
    ∃ blocks rest, (∀ bs ∈ rest, bs.length ≤ 3) ∧ ws.map decode = (messageCommands blocks rest).map .command := by
  induction ws generalizing s with
  | nil => simp [← Host.Outcome.next.inj h, hs] at ht
  | cons w ws ih =>
    have hws' : NoInit ws := (noInit_cons.mp hws).2
    obtain ⟨i, hw, hi, -, hrun⟩ := accept_of_ends_done hws (by rw [hs]; rfl) h ht
    cases i with
    | init seed => exact absurd rfl (hi seed)
    | block b0 b1 b2 b3 =>
      obtain ⟨blocks, rest, hrest, hdec⟩ := ih hws' (absorbBlock_phase _ s) hrun
      exact ⟨(b0, b1, b2, b3) :: blocks, rest, hrest, congrArg₂ List.cons hw hdec⟩
    | tail bs =>
      have hdec : ws.map decode = [.command .final] := decode_of_tailed_ends_done hws' (absorbTail_phase bs s) hrun ht
      have hbs : bs.length ≤ 3 := of_decide_eq_true (decode_wf hw)
      exact ⟨[], some bs, by simpa using hbs, congrArg₂ List.cons hw hdec⟩
    | final =>
      have hnil : ws = [] := eq_nil_of_done_ends_done hws' (finalize_phase s) hrun ht
      exact ⟨[], none, nofun, by rw [hnil, List.map_singleton, hw]; rfl⟩

/-! ### The commands that deliver a message are those of `drive` or `drive_short` (45 R154) -/

theorem byteAt_block_append (b : Byte × Byte × Byte × Byte) (data : List Byte) (i : Nat) :
    byteAt (blockBytes b ++ data) (i + 4) = byteAt data i := rfl

theorem nblocks_block_append (b : Byte × Byte × Byte × Byte) (data : List Byte) :
    nblocks (blockBytes b ++ data) = nblocks data + 1 :=
  Nat.add_div_right data.length (by decide : 0 < 4)

/-- A block in front is the first `BLOCK`. -/
theorem blockCommands_block_append (b : Byte × Byte × Byte × Byte) (data : List Byte) :
    blockCommands (blockBytes b ++ data) = blockOf b :: blockCommands data := by
  rw [blockCommands, nblocks_block_append, List.range_succ_eq_map, List.map_cons, List.map_map]
  rfl

theorem messageTail_block_append (b : Byte × Byte × Byte × Byte) (data : List Byte) :
    messageTail (blockBytes b ++ data) = messageTail data := by
  have hmod : (blockBytes b ++ data).length % 4 = data.length % 4 := Nat.add_mod_right data.length 4
  rw [messageTail, hmod, nblocks_block_append]
  refine List.map_congr_left fun j _ => ?_
  rw [← byteAt_block_append b data]
  congr 1
  omega

theorem nblocks_of_short {bs : List Byte} (hbs : bs.length ≤ 3) : nblocks bs = 0 :=
  Nat.div_eq_of_lt (Nat.lt_succ_of_le hbs)

theorem blockCommands_of_short {bs : List Byte} (hbs : bs.length ≤ 3) : blockCommands bs = [] := by
  rw [blockCommands, nblocks_of_short hbs]
  rfl

/-- Fewer than four bytes are their own tail. -/
theorem messageTail_of_short {bs : List Byte} (hbs : bs.length ≤ 3) : messageTail bs = bs := by
  have hlen : (messageTail bs).length = bs.length :=
    (length_messageTail bs).trans (Nat.mod_eq_of_lt (Nat.lt_succ_of_le hbs))
  refine List.ext_getElem hlen fun j _ hj => ?_
  simp [messageTail, nblocks_of_short hbs, byteAt, hj]

theorem blockCommands_append (blocks : List (Byte × Byte × Byte × Byte)) {bs : List Byte} (hbs : bs.length ≤ 3) :
    blockCommands (blocks.flatMap blockBytes ++ bs) = blocks.map blockOf := by
  induction blocks with
  | nil => exact blockCommands_of_short hbs
  | cons b blocks ih =>
    rw [List.flatMap_cons, List.append_assoc, blockCommands_block_append, ih, List.map_cons]

theorem messageTail_append (blocks : List (Byte × Byte × Byte × Byte)) {bs : List Byte} (hbs : bs.length ≤ 3) :
    messageTail (blocks.flatMap blockBytes ++ bs) = bs := by
  induction blocks with
  | nil => exact messageTail_of_short hbs
  | cons b blocks ih => rw [List.flatMap_cons, List.append_assoc, messageTail_block_append, ih]

theorem init_messageCommands (seed : Word) (blocks : List (Byte × Byte × Byte × Byte)) {rest : Option (List Byte)}
    (hrest : ∀ bs ∈ rest, bs.length ≤ 3) :
    .init seed :: messageCommands blocks rest = driveCommands seed (messageBytes blocks rest) ∨
    .init seed :: messageCommands blocks rest = driveShortCommands seed (messageBytes blocks rest) := by
  cases rest with
  | some bs =>
    left
    have hbs : bs.length ≤ 3 := hrest bs rfl
    rw [driveCommands, messageBytes, Option.getD_some, blockCommands_append blocks hbs, messageTail_append blocks hbs]
    simp [messageCommands]
  | none =>
    right
    have hnil : ([] : List Byte).length ≤ 3 := Nat.zero_le 3
    have hfull : (messageBytes blocks none).length % 4 = 0 := by
      rw [← length_messageTail, messageBytes, Option.getD_none, messageTail_append blocks hnil]
      rfl
    rw [driveShortCommands, if_pos hfull, messageBytes, Option.getD_none, blockCommands_append blocks hnil]
    simp [messageCommands]

/-! ### The hash of the message delivered since the last `INIT` -/

/-- A run depends on its words through what they decode to. -/
theorem runWords_of_decode {ws : List CmdWord} {is : List Instr} (h : ws.map decode = is.map .command) (s : State) :
    runWords ws s = runWords (is.map encode) s := by
  induction is generalizing ws s with
  | nil => rw [List.map_eq_nil_iff.mp h]; rfl
  | cons i is ih =>
    obtain ⟨w, ws, rfl, hw, hws⟩ := List.map_eq_cons_iff.mp h
    rw [List.map_cons, runWords, runWords, accept_of_command hw, accept_encode (decode_wf hw)]
    exact congrArg (andThen (exec i s)) (funext (ih hws))

theorem runWords_init_message {ws : List CmdWord} {seed : Word} {blocks : List (Byte × Byte × Byte × Byte)}
    {rest : Option (List Byte)} (hrest : ∀ bs ∈ rest, bs.length ≤ 3)
    (h : ws.map decode = (Instr.init seed :: messageCommands blocks rest).map .command) (s : State) :
    runWords ws s = .next (afterDrive seed (messageBytes blocks rest) s) := by
  rw [runWords_of_decode h]
  rcases init_messageCommands seed blocks hrest with hdrive | hshort
  · rw [hdrive]
    exact runWords_drive seed _ s
  · rw [hshort]
    exact runWords_driveShort seed _ s

theorem exists_last_init {ws : List CmdWord} (h : ∃ w ∈ ws, ∃ seed, decode w = .command (.init seed)) :
    ∃ before w seed after, ws = before ++ w :: after ∧ decode w = .command (.init seed) ∧ NoInit after := by
  induction ws with
  | nil => simp at h
  | cons w ws ih =>
    by_cases hlater : ∃ w ∈ ws, ∃ seed, decode w = .command (.init seed)
    · obtain ⟨before, v, seed, after, rfl, hv, hafter⟩ := ih hlater
      exact ⟨w :: before, v, seed, after, rfl, hv, hafter⟩
    · have hws : NoInit ws := fun v hv seed e => hlater ⟨v, hv, seed, e⟩
      obtain ⟨v, hv, seed, hinit⟩ := h
      rcases List.mem_cons.mp hv with rfl | hmem
      · exact ⟨[], v, seed, ws, rfl, hinit, hws⟩
      · exact absurd hinit (hws v hmem seed)

/-- Without an `INIT` a run that ends in `DONE` does not begin in `IDLE`. -/
theorem phase_ne_idle_of_ends_done {ws : List CmdWord} {s t : State} (hws : NoInit ws)
    (h : runWords ws s = .next t) (ht : t.phase = .done) : s.phase ≠ .idle := by
  intro hs
  cases ws with
  | nil => simp [← Host.Outcome.next.inj h, hs] at ht
  | cons w ws =>
    obtain ⟨i, -, hi, hl, -⟩ := accept_of_ends_done hws (by rw [hs]; rfl) h ht
    simpa [hs, hi] using (legalPhases _ _).mp hl

/-! ### `drive` word by word (45 R160) -/

theorem noInit_map_encode {is : List Instr} (h : ∀ i ∈ is, i.wf = true ∧ ∀ seed, i ≠ .init seed) :
    NoInit (is.map encode) := by
  intro w hw seed hinit
  obtain ⟨i, hi, rfl⟩ := List.mem_map.mp hw
  obtain ⟨hwf, hni⟩ := h i hi
  exact hni seed (Decoded.command.inj ((decode_encode i hwf).symm.trans hinit))

/-- Only the first word of `drive` is an `INIT`. -/
theorem noInit_drop_drive (seed : Word) (data : List Byte) {k : Nat} (hk : 1 ≤ k) :
    NoInit ((drive seed data).drop k) := by
  have hrest : NoInit ((blockCommands data ++ [Instr.tail (messageTail data), .final]).map encode) := by
    refine noInit_map_encode fun i hi => ?_
    rcases List.mem_append.mp hi with hblock | hend
    · obtain ⟨j, -, rfl⟩ := List.mem_map.mp hblock
      exact ⟨rfl, nofun⟩
    · rcases List.mem_pair.mp hend with rfl | rfl
      · exact ⟨wf_messageTail data, nofun⟩
      · exact ⟨rfl, nofun⟩
  obtain ⟨n, rfl⟩ := Nat.exists_eq_add_of_le' hk
  exact fun w hw => hrest w (List.mem_of_mem_drop hw)

/-! ### The hash function (45 R161, R162) -/

theorem hashFn_nil (seed : Word) : hashFn seed [] = fmix seed 0 := by
  have htail : tailRound seed (tailAssemble []) = seed := tailRound_nil seed
  exact congrArg (fmix · 0) htail

theorem bijective_blockLoop (data : List Byte) (n : Nat) : Function.Bijective (blockLoop data n) := by
  induction n with
  | zero => exact Function.bijective_id
  | succ n ih =>
    have hstep : blockLoop data (n + 1) = (fun h => blockRound h (messageBlock data n)) ∘ blockLoop data n :=
      funext (blockLoop_succ data n)
    exact hstep ▸ (bijective_blockRound_h _).comp ih

theorem bijective_tailRound (k : Word) : Function.Bijective fun h => tailRound h k := bijective_xor32_const (scramble k)

theorem bijective_hashFn (data : List Byte) : Function.Bijective fun seed => hashFn seed data :=
  (bijective_fmix _).comp ((bijective_tailRound _).comp (bijective_blockLoop data (nblocks data)))

/-! ### The statements -/

/-- Settles O43: the core goes through the presented words as `runWords` does, and both sequences leave the state after
`drive`, whose result is the hash. -/
theorem unitComputesTheHash : Obligations.UnitComputesTheHash := fun s seed data =>
  ⟨⟨afterDrive seed data s, run_presenting (runWords_drive seed data s), result_afterDrive seed data s,
      afterDrive_pins seed data s⟩,
    afterDrive seed data s, run_presenting (runWords_driveShort seed data s), result_afterDrive seed data s,
      afterDrive_pins seed data s⟩

/-- Settles O44: after the last `INIT` the unit is in `ABSORB`, and a run from there to `DONE` without an `INIT` delivers a
message, so it is a run over `drive` or `drive_short` of that message. -/
theorem everyResultIsAHash : Obligations.EveryResultIsAHash := by
  refine ⟨fun s t ws hinit h ht => ?_, fun s t ws hws hs h ht => ?_⟩
  · obtain ⟨before, w, seed, after, rfl, hw, hafter⟩ := exists_last_init hinit
    rw [runWords_append] at h
    obtain ⟨u, -, hu⟩ := andThen_eq_next h
    have hrun : runWords after (startOperation seed u) = .next t := by
      rwa [runWords, accept_of_command hw, exec_init, andThen_next] at hu
    obtain ⟨blocks, rest, hrest, hdec⟩ := decode_of_absorb_ends_done hafter (startOperation_phase seed u) hrun ht
    have hcommands : (w :: after).map decode = (Instr.init seed :: messageCommands blocks rest).map .command :=
      congrArg₂ List.cons hw hdec
    have hresult : t = afterDrive seed (messageBytes blocks rest) u :=
      Host.Outcome.next.inj (hu.symm.trans (runWords_init_message hrest hcommands u))
    refine ⟨before, seed, blocks, rest, w :: after, rfl, hrest, ?_, hresult ▸ result_afterDrive seed _ u⟩
    simp [hcommands, messageCommands, blockOf, Function.comp_def]
  · rcases hs with hidle | hfault
    · exact phase_ne_idle_of_ends_done hws h ht hidle
    · exact phase_ne_fault_of_ends_done hws h ht hfault

/-- Settles O45: the whole run ends in `DONE`, and a fault after one of its words would stay, since no later word is an `INIT`. -/
theorem hashingNeverFaults : Obligations.HashingNeverFaults := by
  intro s seed data k hk hlen
  have hsplit : (drive seed data).take k ++ (drive seed data).drop k = drive seed data := List.take_append_drop k _
  have hall := runWords_drive seed data s
  rw [← hsplit, runWords_append] at hall
  obtain ⟨t, hfirst, hlater⟩ := andThen_eq_next hall
  have hrun := run_presenting_append hfirst ((drive seed data).drop k)
  rw [hsplit, List.length_take_of_le hlen] at hrun
  have hphase : (t.presenting ((drive seed data).drop k)).phase = t.phase := presenting_phase t _
  refine ⟨_, hrun, ?_, fun hend => ?_⟩
  · rw [hphase]
    exact phase_ne_fault_of_ends_done (noInit_drop_drive seed data hk) hlater (afterDrive_phase seed data s)
  · rw [List.drop_of_length_le hend.ge] at hlater
    rw [hphase, Host.Outcome.next.inj hlater, afterDrive_phase]

/-- Settles O47: every step of the hash is a bijection of the running value, which begins as the seed. -/
theorem seedSensitivity : Obligations.SeedSensitivity := by
  refine ⟨?_, ?_, bijective_hashFn⟩
  · rw [hashFn_nil]
    decide
  · rw [hashFn_nil]
    exact fmix_zero_zero

/-- Settles O46: the empty message has no block, and its empty tail changes nothing. -/
theorem emptyMessage : Obligations.EmptyMessage :=
  ⟨hashFn_nil, (hashFn_nil 0).trans fmix_zero_zero⟩

end Sys2Proof.Proofs

/-! ## Proofs of the family 60_exceptions: what raises a fault, what the unit does in `FAULT`, and the ways out -/

namespace Sys2Proof.Proofs

open Sys2Proof.Machine

/-! ### Outside `FAULT`: the code an accepted word leaves (60 R171) -/

/-- Only an `INIT` writes `ERRCODE` when it is in sequence (10 R36). -/
theorem errcode_effectOf {i : Instr} (hi : ∀ seed, i ≠ .init seed) (s : State) : (effectOf i s).errcode = s.errcode := by
  cases i with
  | init seed => exact absurd rfl (hi seed)
  | block b0 b1 b2 b3 => exact absorbBlock_errcode _ s
  | tail bs => exact absorbTail_errcode bs s
  | final => exact finalize_errcode s

/-- With no fault before it, an accepted word leaves the code of the first test it fails: the encoding test, then the
sequence test (45 R152, 60 R174). -/
theorem errcode_of_accept {w : CmdWord} {s t : State} (hnone : s.errcode = .none) (hd : drops s.phase = false)
    (h : accept w s = .next t) :
    (∃ k, decode w = .reserved k ∧ t.errcode = .reservedEncoding) ∨
    (∃ i, decode w = .command i ∧ t.errcode = if legal s.phase (.command i) then .none else .outOfSequence) := by
  rcases accept_cases h with
    ⟨seed, hw, rfl⟩ | ⟨-, hdrop, -⟩ | ⟨i, hw, hi, -, hl, rfl⟩ | ⟨i, hw, -, -, hl, rfl⟩ | ⟨k, hw, -, rfl⟩
  · exact .inr ⟨.init seed, hw, startOperation_errcode seed s⟩
  · exact absurd (hd.symm.trans hdrop) (by decide)
  · exact .inr ⟨i, hw, by rw [errcode_effectOf hi, hnone, if_pos hl]⟩
  · exact .inr ⟨i, hw, by simp [hl]⟩
  · exact .inl ⟨k, hw, raiseFault_errcode _ s⟩

/-- The commands and phases that 60 R171 lists for `OUT_OF_SEQUENCE`: among the phases 0 to 3, those of no legal entry. -/
theorem illegal_iff {p : Phase} (hd : drops p = false) (i : Instr) :
    legal p (.command i) = false ↔
      ((∃ b0 b1 b2 b3, i = .block b0 b1 b2 b3) ∧ (p = .idle ∨ p = .tailed ∨ p = .done)) ∨
      ((∃ bs, i = .tail bs) ∧ (p = .idle ∨ p = .tailed ∨ p = .done)) ∨
      (i = .final ∧ (p = .idle ∨ p = .done)) := by
  have hp := (drops_eq_false_iff p).mp hd
  cases i with
  | init seed => simp [legal]
  | block b0 b1 b2 b3 => rcases hp with rfl | rfl | rfl | rfl <;> simp [legal]
  | tail bs => rcases hp with rfl | rfl | rfl | rfl <;> simp [legal]
  | final => rcases hp with rfl | rfl | rfl | rfl <;> simp [legal]

/-! ### In `FAULT` (60 R177, R178) -/

theorem drops_of_fault {s : State} (hs : s.phase = .fault) : drops s.phase = true := by
  rw [hs]
  rfl

/-- In `FAULT` an accepted word is an `INIT` and starts an operation, or it changes nothing. -/
theorem accept_of_fault {w : CmdWord} {s t : State} (hs : s.phase = .fault) (h : accept w s = .next t) :
    (∃ seed, decode w = .command (.init seed) ∧ t = startOperation seed s) ∨ t = s := by
  by_cases hw : ∃ seed, decode w = .command (.init seed)
  · obtain ⟨seed, hseed⟩ := hw
    rw [accept_of_command hseed, exec_init] at h
    exact .inl ⟨seed, hseed, (Host.Outcome.next.inj h).symm⟩
  · rw [accept_of_drops (not_exists.mp hw) (drops_of_fault hs)] at h
    exact .inr (Host.Outcome.next.inj h).symm

theorem resetUnit_eq (s : State) :
    resetUnit s = { h := 0, len := 0, phase := .idle, errcode := .none, pins := s.pins } := rfl

/-! ### The ports after a fault entry (60 R176) -/

theorem raiseFault_phase_ne_done (code : ErrCode) (s : State) : (raiseFault code s).phase ≠ .done := by
  rw [raiseFault_phase]
  decide

theorem statusPort_raiseFault (code : ErrCode) (s : State) : statusPort (raiseFault code s) = errBits code ++ 0b100#3 := by
  rw [statusPort, raiseFault_phase, raiseFault_errcode]
  rfl

/-! ### The statements -/

/-- Settles O24: `ERRCODE` was `NONE` before (10 R35), so the code after the word is the one it raises; a reserved word
raises the first, and a command the second exactly when it is not legal. -/
theorem whatRaisesEachFault : Obligations.WhatRaisesEachFault := by
  intro w s t hinv hfault h
  have hd : drops s.phase = false := drops_of_phaseNamed hinv.1 hfault
  rcases errcode_of_accept (errcode_of_inv hinv hfault) hd h with ⟨k, hw, hcode⟩ | ⟨i, hw, hcode⟩
  · simp [hw, hcode]
  · simp only [hw, hcode, Decoded.command.injEq, ← illegal_iff hd i]
    cases legal s.phase (.command i) <;> simp

/-- Settles O27: `FAULT` drops words, and a sample that presents a word without reset is the acceptance of that word. -/
theorem faultDropsWords : Obligations.FaultDropsWords := by
  intro w s hs hw
  have hdropped : ∀ u : State, u.phase = .fault → accept w u = .next u := fun u hu => accept_of_drops hw (drops_of_fault hu)
  refine ⟨hdropped s hs, rfl, fun ps hps => ?_⟩
  rw [step_of_cons hps, samplePins_present]
  exact hdropped (s.setPins ps) ((State.setPins_phase s ps).trans hs)

/-- Settles O28: of the three things a step can do, waiting changes no register, and so does a word in `FAULT` that is not an
`INIT`; the other two give the states written out. -/
theorem waysOutOfFault : Obligations.WaysOutOfFault := by
  refine ⟨fun s t hs h hchange => ?_, fun seed s _ => (exec_init seed s).trans (congrArg _ (startOperation_eq seed s))⟩
  have hkept : t ≠ s.setPins s.pins.tail := by
    rintro rfl
    simp [hs] at hchange
  rcases step_cases h with ⟨hr, rfl⟩ | ⟨-, w, hw, ha⟩ | ⟨-, -, ht⟩
  · exact .inr ⟨hr, by rw [resetUnit_eq, State.setPins_pins]⟩
  · rcases accept_of_fault ((State.setPins_phase s _).trans hs) ha with ⟨seed, hinit, rfl⟩ | ht
    · exact .inl ⟨w, seed, hw, hinit, by rw [startOperation_eq, State.setPins_pins]⟩
    · exact absurd ht hkept
  · exact absurd ht hkept

/-- Settles O29: a reserved word in a phase that drops nothing faults whatever the phase; a sample with `rst` is a reset; in
`FAULT` only an `INIT` writes `ERRCODE`. -/
theorem faultPriority : Obligations.FaultPriority := by
  refine ⟨fun w k s hw hnamed hfault => ?_, fun s w ps hps => ?_, fun w s t hs h => ?_⟩
  · obtain ⟨-, hraises⟩ := reservedWordsFault w s
    exact (hraises ⟨k, hw⟩).1 hnamed hfault
  · rw [step_of_cons hps, samplePins, if_pos rfl, resetUnit_eq, State.setPins_pins]
  · rcases accept_of_fault hs h with ⟨seed, hw, rfl⟩ | rfl
    · exact .inr ⟨seed, hw, startOperation_errcode seed s⟩
    · exact .inl rfl

/-- Settles O26: fault entry writes `PHASE` and `ERRCODE`, which `status` shows; in `FAULT` there is no result (10 R29). -/
theorem faultEntry : Obligations.FaultEntry := fun code s =>
  have hnotDone := raiseFault_phase_ne_done code s
  ⟨raiseFault_eq code s, statusPort_raiseFault code s, statusPort_raiseFault .reservedEncoding s,
    statusPort_raiseFault .outOfSequence s, resValid_of_not_done hnotDone, resData_of_not_done hnotDone⟩

end Sys2Proof.Proofs

/-! ## Proofs of the family 70_reset_and_hazards: reset, and the wait for the next command -/

namespace Sys2Proof.Proofs

open Sys2Proof.Machine

/-! ### Reset (70 R190) -/

theorem samplePins_of_rst {p : Pins} (hr : p.rst = true) (s : State) : samplePins p s = .next (resetUnit s) :=
  if_pos hr

theorem step_of_rst {s : State} {p : Pins} {ps : List Pins} (hps : s.pins = p :: ps) (hr : p.rst = true) :
    step s = .next { h := 0, len := 0, phase := .idle, errcode := .none, pins := ps } := by
  rw [step_of_cons hps, samplePins_of_rst hr, resetUnit_eq, State.setPins_pins]

/-! ### Waiting (70 R200) -/

theorem samplePins_of_nothing {p : Pins} (hr : p.rst = false) (hv : p.cmdValid = false) (s : State) :
    samplePins p s = .next s := by
  simp [samplePins, hr, hv]

/-- The oldest sample, if there is one, shows neither a reset nor a word. -/
theorem head_quiet_of_no_event {s : State} {p : Pins} {ps : List Pins} (hps : s.pins = p :: ps)
    (hreset : nextIsReset s = false) (hword : acceptedWord s = none) : p.rst = false ∧ p.cmdValid = false := by
  have hr : p.rst = false := by simpa [nextIsReset, hps] using hreset
  exact ⟨hr, by simpa [acceptedWord, hps, hr] using hword⟩

/-- With neither a reset nor a word in the oldest sample, a step takes the sample and does nothing else. -/
theorem step_of_no_event {s : State} (hreset : nextIsReset s = false) (hword : acceptedWord s = none) :
    step s = .next (s.setPins s.pins.tail) := by
  cases hps : s.pins with
  | nil =>
    have hs : s.setPins [] = s := by rw [← hps]; rfl
    rw [step_of_nil hps, List.tail_nil, hs]
  | cons p ps =>
    obtain ⟨hr, hv⟩ := head_quiet_of_no_event hps hreset hword
    rw [step_of_cons hps, samplePins_of_nothing hr hv, List.tail_cons]

theorem no_event_of_pins_quiet {s : State} (h : ∀ p ∈ s.pins, p.rst = false ∧ p.cmdValid = false) :
    nextIsReset s = false ∧ acceptedWord s = none := by
  cases hps : s.pins with
  | nil => simp [nextIsReset, acceptedWord, hps]
  | cons p ps =>
    obtain ⟨hr, hv⟩ := h p (by simp [hps])
    simp [nextIsReset, acceptedWord, hps, hr, hv]

/-- Any number of steps over samples that show neither a reset nor a word takes so many samples and does nothing else. -/
theorem run_of_pins_quiet (n : Nat) {s : State} (h : ∀ p ∈ s.pins, p.rst = false ∧ p.cmdValid = false) :
    core.run n s = .next (s.setPins (s.pins.drop n)) := by
  induction n generalizing s with
  | zero => rfl
  | succ n ih =>
    obtain ⟨hreset, hword⟩ := no_event_of_pins_quiet h
    have hstep : core.step s = .next (s.setPins s.pins.tail) := step_of_no_event hreset hword
    have htail : ∀ p ∈ (s.setPins s.pins.tail).pins, p.rst = false ∧ p.cmdValid = false := fun p hp =>
      h p (List.mem_of_mem_tail (State.setPins_pins s _ ▸ hp))
    calc core.run (n + 1) s
      _ = core.run n (s.setPins s.pins.tail) := run_succ_of_next hstep n
      _ = .next ((s.setPins s.pins.tail).setPins ((s.setPins s.pins.tail).pins.drop n)) := ih htail
      _ = .next (s.setPins (s.pins.drop (n + 1))) := by rw [State.setPins_pins, List.drop_tail]; rfl

/-! ### The statements -/

/-- Settles O38: one step by the sample it takes, any number of steps by induction on it. -/
theorem waitsForEver : Obligations.WaitsForEver :=
  ⟨fun _ hreset hword => step_of_no_event hreset hword, fun n _ h => run_of_pins_quiet n h⟩

/-- Settles O37: the test of `rst` comes first in a sample; of the three things a step can do, waiting changes no register. -/
theorem resetWins : Obligations.ResetWins := by
  refine ⟨fun s valid w ps hps => ⟨step_of_rst hps rfl, rfl⟩, fun s t h hchange => ?_⟩
  rcases step_cases h with ⟨hr, -⟩ | ⟨-, w, hw, -⟩ | ⟨-, -, rfl⟩
  · exact .inl hr
  · exact .inr ⟨w, hw⟩
  · simp at hchange

end Sys2Proof.Proofs

/-! ## Proofs of the family other, the step: it is total, it keeps the invariant, and a run is the fold of its samples -/

namespace Sys2Proof.Proofs

open Sys2Proof.Machine

/-! ### Every word is accepted, and the pins are the host's (45 R152) -/

theorem effectOf_pins (i : Instr) (s : State) : (effectOf i s).pins = s.pins := by
  cases i with
  | init seed => exact startOperation_pins seed s
  | block b0 b1 b2 b3 => exact absorbBlock_pins _ s
  | tail bs => exact absorbTail_pins bs s
  | final => exact finalize_pins s

theorem accept_pins {w : CmdWord} {s t : State} (h : accept w s = .next t) : t.pins = s.pins := by
  rcases accept_cases h with
    ⟨seed, -, rfl⟩ | ⟨-, -, rfl⟩ | ⟨i, -, -, -, -, rfl⟩ | ⟨i, -, -, -, -, rfl⟩ | ⟨k, -, -, rfl⟩
  · exact startOperation_pins seed s
  · rfl
  · exact effectOf_pins i s
  · exact raiseFault_pins _ s
  · exact raiseFault_pins _ s

theorem exec_total (i : Instr) (s : State) : ∃ t, exec i s = .next t := by
  by_cases hi : ∃ seed, i = .init seed
  · obtain ⟨seed, rfl⟩ := hi
    exact ⟨_, exec_init seed s⟩
  · rw [exec_of_not_init (not_exists.mp hi), sequenced_eq]
    exact ⟨_, rfl⟩

theorem accept_total (w : CmdWord) (s : State) : ∃ t, accept w s = .next t := by
  cases hw : decode w with
  | command i =>
    rw [accept_of_command hw]
    exact exec_total i s
  | reserved k =>
    rw [accept_of_reserved hw, acceptReserved]
    split
    · exact ⟨_, rfl⟩
    · exact ⟨_, rfl⟩

theorem samplePins_total (p : Pins) (s : State) : ∃ t, samplePins p s = .next t := by
  rw [samplePins]
  split
  · exact ⟨_, rfl⟩
  · split
    · exact accept_total p.cmdWord s
    · exact ⟨_, rfl⟩

theorem step_total (s : State) : ∃ t, step s = .next t := by
  cases hps : s.pins with
  | nil => exact ⟨s, step_of_nil hps⟩
  | cons p ps =>
    rw [step_of_cons hps]
    exact samplePins_total p _

theorem runWords_total (ws : List CmdWord) (s : State) : ∃ t, runWords ws s = .next t := by
  induction ws generalizing s with
  | nil => exact ⟨s, rfl⟩
  | cons w ws ih =>
    obtain ⟨u, hu⟩ := accept_total w s
    rw [runWords, hu, andThen_next]
    exact ih u

/-! ### Runs over samples of the pins (70 R203) -/

@[simp] theorem setPins_setPins (s : State) (ps qs : List Pins) : (s.setPins ps).setPins qs = s.setPins qs := rfl

@[simp] theorem setPins_self (s : State) : s.setPins s.pins = s := rfl

/-- An effect neither reads nor writes the pins. -/
theorem effectOf_setPins (i : Instr) (ps : List Pins) (s : State) :
    effectOf i (s.setPins ps) = (effectOf i s).setPins ps := by
  cases i with
  | init seed => rfl
  | block b0 b1 b2 b3 => apply state_eq_of_fields <;> simp [effectOf]
  | tail bs => apply state_eq_of_fields <;> simp [effectOf]
  | final => apply state_eq_of_fields <;> simp [effectOf]

/-- What the host drives later does not matter to the word accepted now. -/
theorem accept_setPins {w : CmdWord} {s t : State} (h : accept w s = .next t) (ps : List Pins) :
    accept w (s.setPins ps) = .next (t.setPins ps) := by
  have hphase := State.setPins_phase s ps
  rcases accept_cases h with
    ⟨seed, hw, rfl⟩ | ⟨hw, hd, rfl⟩ | ⟨i, hw, hi, hd, hl, rfl⟩ | ⟨i, hw, hi, hd, hl, rfl⟩ | ⟨k, hw, hd, rfl⟩
  · rw [accept_of_command hw, exec_init]
    rfl
  · exact accept_of_drops hw (hphase ▸ hd)
  · rw [accept_of_command hw, exec_of_legal hi (hphase ▸ hd) (hphase ▸ hl), effectOf_setPins]
  · rw [accept_of_command hw, exec_of_illegal hi (hphase ▸ hd) (hphase ▸ hl)]
    rfl
  · rw [accept_of_reserved hw, acceptReserved, hphase, hd]
    rfl

theorem samplePins_pins {p : Pins} {s t : State} (h : samplePins p s = .next t) : t.pins = s.pins := by
  rcases samplePins_cases h with ⟨-, rfl⟩ | ⟨-, -, ha⟩ | ⟨-, -, rfl⟩
  · exact resetUnit_pins s
  · exact accept_pins ha
  · rfl

theorem samplePins_setPins {p : Pins} {s t : State} (h : samplePins p s = .next t) (ps : List Pins) :
    samplePins p (s.setPins ps) = .next (t.setPins ps) := by
  rcases samplePins_cases h with ⟨hr, rfl⟩ | ⟨hr, hv, ha⟩ | ⟨hr, hv, rfl⟩
  · exact samplePins_of_rst hr _
  · rw [samplePins, if_neg (by simp [hr]), if_pos hv, accept_setPins ha]
  · exact samplePins_of_nothing hr hv _

theorem runPins_total (ps : List Pins) (s : State) : ∃ t, runPins ps s = .next t ∧ t.pins = s.pins := by
  induction ps generalizing s with
  | nil => exact ⟨s, rfl, rfl⟩
  | cons p ps ih =>
    obtain ⟨u, hu⟩ := samplePins_total p s
    obtain ⟨t, ht, hpins⟩ := ih u
    exact ⟨t, by rw [runPins, hu, andThen_next, ht], hpins.trans (samplePins_pins hu)⟩

/-- The core takes the samples one by one, as `runPins` does, and leaves those after them. -/
theorem run_setPins_append {ps : List Pins} {s t : State} (h : runPins ps s = .next t) (qs : List Pins) :
    core.run ps.length (s.setPins (ps ++ qs)) = .next (t.setPins qs) := by
  induction ps generalizing s with
  | nil => exact congrArg (fun u : State => Host.Outcome.next (u.setPins qs)) (Host.Outcome.next.inj h)
  | cons p ps ih =>
    obtain ⟨u, hu, hrun⟩ := andThen_eq_next h
    have hstep : core.step (s.setPins (p :: (ps ++ qs))) = .next (u.setPins (ps ++ qs)) :=
      (step_of_cons (State.setPins_pins s _)).trans (samplePins_setPins hu (ps ++ qs))
    exact (run_succ_of_next hstep ps.length).trans (ih hrun)

theorem run_samples (ps : List Pins) (s : State) : core.run ps.length (s.setPins (ps ++ s.pins)) = runPins ps s := by
  obtain ⟨t, ht, hpins⟩ := runPins_total ps s
  have ht' : t.setPins s.pins = t := by rw [← hpins, setPins_self]
  have hrun := run_setPins_append ht s.pins
  rw [ht'] at hrun
  exact hrun.trans ht.symm

/-! ### The statements -/

/-- Settles O35: a step is a reset, an accepted word or a wait, and each keeps the invariant (`step_keeps_inv`). -/
theorem invariantKeptByStep : Obligations.InvariantKeptByStep := fun _ _ => step_keeps_inv

/-- Settles O34: the reset state is a literal. -/
theorem invariantAtReset : Obligations.InvariantAtReset := inv_reset

/-- Settles O23: each test of 45 R152 has a next state on both sides, and none writes the pins. -/
theorem everyStepHasASuccessor : Obligations.EveryStepHasASuccessor := by
  refine ⟨step_total, fun w s => ?_⟩
  obtain ⟨t, ht⟩ := accept_total w s
  exact ⟨t, ht, accept_pins ht⟩

/-- Settles O41: both runs answer, and the core takes the words and the samples in the same order. -/
theorem runIsTheFoldOfSteps : Obligations.RunIsTheFoldOfSteps := by
  refine ⟨fun s ws => ?_, fun s ps => run_samples ps s⟩
  obtain ⟨t, ht⟩ := runWords_total ws s
  exact (run_presenting ht).trans ht.symm

end Sys2Proof.Proofs

/-! ## Proofs of the family other, the cycle level: the handshake, the simulation, and the host at its pace -/

namespace Sys2Proof.Proofs

open Sys2Proof.Machine

/-! ### The clock (70 R194, R195) -/

theorem cycleAccepts_of_rst {p : Pins} (hr : p.rst = true) (c : CycleState) : cycleAccepts p c = false := by
  simp [cycleAccepts, cycleReady, cmdReady, hr]

theorem cycleReady_of_idle (q : Pins) (u : State) : cycleReady q { unit := u, inFlight := none } = !q.rst := by
  simp [cycleReady, cmdReady]

theorem cycleReady_of_busy (q : Pins) (u : State) (f : InFlight) :
    cycleReady q { unit := u, inFlight := some f } = false := by
  simp [cycleReady]

theorem clock_of_rst {t : Latency} {p : Pins} (hr : p.rst = true) (c : CycleState) :
    clock t p c = .next { unit := resetUnit c.unit, inFlight := none } :=
  if_pos hr

/-- A ready unit to which nothing is presented holds its state. -/
theorem clock_of_nothing {t : Latency} {p : Pins} {c : CycleState} (hr : p.rst = false) (hv : p.cmdValid = false)
    (hf : c.inFlight = none) : clock t p c = .next c := by
  simp [clock, hr, hv, hf]

theorem advance_zero {w : CmdWord} {u u' : State} (h : accept w u = .next u') :
    advance w 0 u = .next { unit := u', inFlight := none } := by
  rw [advance, h, andThen_next]

theorem advance_succ (w : CmdWord) (n : Nat) (u : State) :
    advance w (n + 1) u = .next { unit := u, inFlight := some { word := w, left := n } } := rfl

/-- Without reset, each cycle after an acceptance takes one busy cycle off, whatever the host presents. -/
theorem advance_then_clockRun (t : Latency) {w : CmdWord} {n : Nat} {u : State} {qs : List Pins}
    (hqs : ∀ q ∈ qs, q.rst = false) (hlen : qs.length ≤ n) :
    andThen (advance w n u) (clockRun t qs) = advance w (n - qs.length) u := by
  induction qs generalizing n with
  | nil => cases advance w n u <;> rfl
  | cons q qs ih =>
    obtain ⟨hq, hqs⟩ := List.forall_mem_cons.mp hqs
    obtain ⟨n, rfl⟩ := Nat.exists_eq_add_of_le' (Nat.one_le_of_lt hlen)
    rw [advance_succ, andThen_next, clockRun, Laws.clock_of_busy hq, ih hqs (Nat.le_of_succ_le_succ hlen),
      List.length_cons, Nat.add_sub_add_right]

theorem clockRun_of_accepts (t : Latency) {p : Pins} {c : CycleState} (hp : cycleAccepts p c = true) {qs : List Pins}
    (hqs : ∀ q ∈ qs, q.rst = false) (hlen : qs.length ≤ busyCycles t p.cmdWord) :
    clockRun t (p :: qs) c = advance p.cmdWord (busyCycles t p.cmdWord - qs.length) c.unit := by
  rw [clockRun, Laws.clock_of_accepts hp, advance_then_clockRun t hqs hlen]

/-! ### The state a cycle state commits to (93 U8) -/

/-- `t` is the state the unit is in, or the one the command in flight will leave. -/
def CommitsTo (c : CycleState) (t : State) : Prop :=
  (c.inFlight = none → t = c.unit) ∧ ∀ f, c.inFlight = some f → accept f.word c.unit = .next t

theorem commitsTo_idle_iff {u t : State} : CommitsTo { unit := u, inFlight := none } t ↔ t = u := by
  simp [CommitsTo]

theorem commitsTo_busy_iff {u t : State} {w : CmdWord} {n : Nat} :
    CommitsTo { unit := u, inFlight := some { word := w, left := n } } t ↔ accept w u = .next t := by
  simp [CommitsTo]

theorem exists_commitsTo (c : CycleState) : ∃ t, CommitsTo c t := by
  obtain ⟨u, _ | ⟨w, n⟩⟩ := c
  · exact ⟨u, commitsTo_idle_iff.mpr rfl⟩
  · exact (accept_total w u).imp fun _ => commitsTo_busy_iff.mpr

theorem CommitsTo.pins {c : CycleState} {t : State} (h : CommitsTo c t) : t.pins = c.unit.pins := by
  obtain ⟨u, _ | ⟨w, n⟩⟩ := c
  · rw [commitsTo_idle_iff.mp h]
  · exact accept_pins (commitsTo_busy_iff.mp h)

/-- A reset depends on nothing but the pins, so it leaves the same state with a command in flight and after it. -/
theorem CommitsTo.resetUnit_congr {c : CycleState} {t : State} (h : CommitsTo c t) : resetUnit t = resetUnit c.unit := by
  rw [resetUnit_eq, resetUnit_eq, h.pins]

/-- An edge of a unit at work commits to what the acceptance gives, whether it is the last or not. -/
theorem advance_commitsTo {w : CmdWord} {u u' : State} (h : accept w u = .next u') (n : Nat) :
    ∃ c, advance w n u = .next c ∧ CommitsTo c u' := by
  cases n with
  | zero => exact ⟨_, advance_zero h, commitsTo_idle_iff.mpr rfl⟩
  | succ n => exact ⟨_, advance_succ w n u, commitsTo_busy_iff.mpr h⟩

/-- The clock edge of a reset or an acceptance is that transaction. -/
theorem clock_of_transaction (t : Latency) {p : Pins} {c : CycleState} {s : State} (hc : CommitsTo c s)
    (hp : (p.rst || cycleAccepts p c) = true) :
    ∃ c' s', clock t p c = .next c' ∧ samplePins p s = .next s' ∧ CommitsTo c' s' := by
  cases hr : p.rst with
  | true => exact ⟨_, _, clock_of_rst hr c, samplePins_of_rst hr s, commitsTo_idle_iff.mpr hc.resetUnit_congr⟩
  | false =>
    have hacc : cycleAccepts p c = true := by simpa [hr] using hp
    obtain ⟨hv, -, hf⟩ := (Laws.cycleAccepts_iff p c).mp hacc
    obtain ⟨s', hs'⟩ := accept_total p.cmdWord s
    obtain ⟨c', hc', hcommits⟩ := advance_commitsTo hs' (busyCycles t p.cmdWord)
    obtain rfl : s = c.unit := hc.1 hf
    exact ⟨c', s', (Laws.clock_of_accepts hacc).trans hc', by simp [samplePins, hr, hv, hs'], hcommits⟩

/-- Any other clock edge changes nothing of what the cycle state commits to. -/
theorem clock_of_no_transaction (t : Latency) {p : Pins} {c : CycleState} {s : State} (hc : CommitsTo c s)
    (hp : (p.rst || cycleAccepts p c) = false) : ∃ c', clock t p c = .next c' ∧ CommitsTo c' s := by
  obtain ⟨hr, hacc⟩ := Bool.or_eq_false_iff.mp hp
  obtain ⟨u, _ | ⟨w, n⟩⟩ := c
  · have hv : p.cmdValid = false := by simpa [cycleAccepts, cycleReady_of_idle, hr] using hacc
    exact ⟨_, clock_of_nothing hr hv rfl, hc⟩
  · rw [Laws.clock_of_busy hr]
    exact advance_commitsTo (commitsTo_busy_iff.mp hc) n

theorem transactions_cons (t : Latency) (p : Pins) (ps : List Pins) {c c' : CycleState} (h : clock t p c = .next c') :
    transactions t (p :: ps) c =
      if p.rst || cycleAccepts p c then p :: transactions t ps c' else transactions t ps c' := by
  simp only [transactions, h]

/-- The simulation: a run of the clock commits to what the run over its transactions leaves. -/
theorem clockRun_refines (t : Latency) (ps : List Pins) {c : CycleState} {s : State} (hc : CommitsTo c s) :
    ∃ c' s', clockRun t ps c = .next c' ∧ runPins (transactions t ps c) s = .next s' ∧ CommitsTo c' s' := by
  induction ps generalizing c s with
  | nil => exact ⟨c, s, rfl, rfl, hc⟩
  | cons p ps ih =>
    cases hp : p.rst || cycleAccepts p c with
    | true =>
      obtain ⟨c₁, s₁, hclock, hsample, hc₁⟩ := clock_of_transaction t hc hp
      obtain ⟨c', s', hrun, hruns, hc'⟩ := ih hc₁
      refine ⟨c', s', by rw [clockRun, hclock, andThen_next, hrun], ?_, hc'⟩
      rw [transactions_cons t p ps hclock, if_pos hp, runPins, hsample, andThen_next, hruns]
    | false =>
      obtain ⟨c₁, hclock, hc₁⟩ := clock_of_no_transaction t hc hp
      obtain ⟨c', s', hrun, hruns, hc'⟩ := ih hc₁
      refine ⟨c', s', by rw [clockRun, hclock, andThen_next, hrun], ?_, hc'⟩
      rw [transactions_cons t p ps hclock, if_neg (by simp [hp]), hruns]

/-! ### The host at its pace (70 R202, 45 R156) -/

/-- Some number of cycles leads from one state of host and unit to the other. -/
def Reaches (t : Latency) (x y : HostCycle) : Prop := ∃ n, hostRun t n x = .next y

theorem Reaches.refl (t : Latency) (x : HostCycle) : Reaches t x x := ⟨0, rfl⟩

theorem Reaches.step {t : Latency} {x y z : HostCycle} (hx : hostClock t x = .next y) (h : Reaches t y z) :
    Reaches t x z := by
  obtain ⟨n, hn⟩ := h
  exact ⟨n + 1, by rw [hostRun, hx, andThen_next, hn]⟩

theorem Reaches.trans {t : Latency} {x y z : HostCycle} (hxy : Reaches t x y) (hyz : Reaches t y z) : Reaches t x z := by
  obtain ⟨n, hn⟩ := hxy
  induction n generalizing x with
  | zero => exact Host.Outcome.next.inj hn ▸ hyz
  | succ n ih =>
    obtain ⟨x', hx', hrun⟩ := andThen_eq_next hn
    exact .step hx' (ih hrun)

/-- A host with a word to deliver reads nothing. -/
theorem hostClock_cons {t : Latency} {p : Nat × CmdWord} {ws : List (Nat × CmdWord)} {r : Nat} {c c' : CycleState}
    {g : Option Word} (h : clock t (hostPins (p :: ws)) c = .next c') :
    hostClock t { toSend := p :: ws, readAfter := r, cycle := c, got := g } = .next
      { toSend := hostNext (cycleAccepts (hostPins (p :: ws)) c) (p :: ws), readAfter := r, cycle := c', got := g } := by
  simp [hostClock, h]

/-- A presented word is delivered in the cycle of its acceptance. -/
theorem hostClock_of_accepted {t : Latency} {w : CmdWord} {ws : List (Nat × CmdWord)} {r : Nat} {c c' : CycleState}
    {g : Option Word} (hacc : cycleAccepts (present w) c = true) (h : clock t (present w) c = .next c') :
    hostClock t { toSend := (0, w) :: ws, readAfter := r, cycle := c, got := g } =
      .next { toSend := ws, readAfter := r, cycle := c', got := g } := by
  rw [hostClock_cons h, hostPins, hacc, hostNext, if_pos rfl]

/-- A word presented to a unit at work is held. -/
theorem hostClock_of_held {t : Latency} {w : CmdWord} {ws : List (Nat × CmdWord)} {r : Nat} {u : State} {f : InFlight}
    {c' : CycleState} {g : Option Word} (h : advance f.word f.left u = .next c') :
    hostClock t { toSend := (0, w) :: ws, readAfter := r, cycle := { unit := u, inFlight := some f }, got := g } =
      .next { toSend := (0, w) :: ws, readAfter := r, cycle := c', got := g } := by
  have hclock : clock t (present w) { unit := u, inFlight := some f } = .next c' := (Laws.clock_of_busy rfl).trans h
  have hacc : cycleAccepts (present w) { unit := u, inFlight := some f } = false := rfl
  rw [hostClock_cons hclock, hostPins, hacc, hostNext, if_neg Bool.false_ne_true]

/-- A cycle of a pause. -/
theorem hostClock_of_pause {t : Latency} {k : Nat} {w : CmdWord} {ws : List (Nat × CmdWord)} {r : Nat}
    {c c' : CycleState} {g : Option Word} (h : clock t quiet c = .next c') :
    hostClock t { toSend := (k + 1, w) :: ws, readAfter := r, cycle := c, got := g } =
      .next { toSend := (k, w) :: ws, readAfter := r, cycle := c', got := g } :=
  hostClock_cons h

/-- The host presents its word until the unit accepts it. -/
theorem reaches_presented (t : Latency) (w : CmdWord) (ws : List (Nat × CmdWord)) (r : Nat) {c : CycleState}
    {s s' : State} (hc : CommitsTo c s) (hw : accept w s = .next s') :
    ∃ c', CommitsTo c' s' ∧
      Reaches t { toSend := (0, w) :: ws, readAfter := r, cycle := c, got := none }
        { toSend := ws, readAfter := r, cycle := c', got := none } := by
  have hready : ∃ c', CommitsTo c' s' ∧
      Reaches t { toSend := (0, w) :: ws, readAfter := r, cycle := { unit := s, inFlight := none }, got := none }
        { toSend := ws, readAfter := r, cycle := c', got := none } := by
    have hacc : cycleAccepts (present w) { unit := s, inFlight := none } = true := rfl
    obtain ⟨c', hadv, hc'⟩ := advance_commitsTo hw (busyCycles t w)
    exact ⟨c', hc', .step (hostClock_of_accepted hacc ((Laws.clock_of_accepts hacc).trans hadv)) (.refl t _)⟩
  obtain ⟨u, _ | ⟨v, n⟩⟩ := c
  · rwa [commitsTo_idle_iff.mp hc] at hready
  · have hv : accept v u = .next s := commitsTo_busy_iff.mp hc
    obtain ⟨c', hc', hreach⟩ := hready
    refine ⟨c', hc', ?_⟩
    induction n with
    | zero => exact .step (hostClock_of_held (advance_zero hv)) hreach
    | succ n ih => exact .step (hostClock_of_held (advance_succ v n u)) (ih (commitsTo_busy_iff.mpr hv))

/-- A pause ends, and then the word is delivered. -/
theorem reaches_delivered (t : Latency) (k : Nat) (w : CmdWord) (ws : List (Nat × CmdWord)) (r : Nat) {c : CycleState}
    {s s' : State} (hc : CommitsTo c s) (hw : accept w s = .next s') :
    ∃ c', CommitsTo c' s' ∧
      Reaches t { toSend := (k, w) :: ws, readAfter := r, cycle := c, got := none }
        { toSend := ws, readAfter := r, cycle := c', got := none } := by
  induction k generalizing c with
  | zero => exact reaches_presented t w ws r hc hw
  | succ k ih =>
    obtain ⟨c₁, hclock, hc₁⟩ := clock_of_no_transaction t (p := quiet) hc rfl
    obtain ⟨c', hc', hreach⟩ := ih hc₁
    exact ⟨c', hc', .step (hostClock_of_pause hclock) hreach⟩

theorem reaches_all_delivered (t : Latency) (ws : List (Nat × CmdWord)) (r : Nat) {c : CycleState} {s s' : State}
    (hc : CommitsTo c s) (hrun : runWords (ws.map Prod.snd) s = .next s') :
    ∃ c', CommitsTo c' s' ∧
      Reaches t { toSend := ws, readAfter := r, cycle := c, got := none }
        { toSend := [], readAfter := r, cycle := c', got := none } := by
  induction ws generalizing c s with
  | nil => exact ⟨c, Host.Outcome.next.inj hrun ▸ hc, .refl t _⟩
  | cons p ws ih =>
    obtain ⟨s₁, hs₁, hrest⟩ := runWords_cons_eq_next hrun
    obtain ⟨c₁, hc₁, hfirst⟩ := reaches_delivered t p.1 p.2 ws r hc hs₁
    obtain ⟨c', hc', hlater⟩ := ih hc₁ hrest
    exact ⟨c', hc', hfirst.trans hlater⟩

/-- No word is accepted in `DONE` and leaves the unit in `DONE`, so no result shows before the `FINAL` is complete (70 R196). -/
theorem phase_ne_done_of_accept {w : CmdWord} {u s : State} (h : accept w u = .next s) (hs : s.phase = .done) :
    u.phase ≠ .done := by
  intro hu
  rcases accept_of_done hu h with ⟨seed, hw⟩ | hfault
  · rw [accept_of_command hw, exec_init] at h
    exact startOperation_phase_ne_done seed u (Host.Outcome.next.inj h ▸ hs)
  · simp [hs] at hfault

/-- With every word delivered and no result on the port, the host waits. -/
theorem hostClock_of_no_result {t : Latency} {r : Nat} {c c' : CycleState} (hc : c.unit.phase ≠ .done)
    (h : clock t quiet c = .next c') :
    hostClock t { toSend := [], readAfter := r, cycle := c, got := none } =
      .next { toSend := [], readAfter := r, cycle := c', got := none } := by
  simp [hostClock, hostPins, hostNext, h, hostSeesResult, resValid_of_not_done hc]

/-- The last command completes. -/
theorem reaches_completed (t : Latency) (r : Nat) {c : CycleState} {s : State} (hc : CommitsTo c s)
    (hs : s.phase = .done) :
    Reaches t { toSend := [], readAfter := r, cycle := c, got := none }
      { toSend := [], readAfter := r, cycle := { unit := s, inFlight := none }, got := none } := by
  obtain ⟨u, _ | ⟨w, n⟩⟩ := c
  · rw [commitsTo_idle_iff.mp hc]
    exact .refl t _
  · have hw : accept w u = .next s := commitsTo_busy_iff.mp hc
    have hu : u.phase ≠ .done := phase_ne_done_of_accept hw hs
    induction n with
    | zero => exact .step (hostClock_of_no_result hu (advance_zero hw)) (.refl t _)
    | succ n ih => exact .step (hostClock_of_no_result hu (advance_succ w n u)) (ih (commitsTo_busy_iff.mpr hw))

/-- With the result on the port, the host lets its pause pass and reads. -/
theorem reaches_read (t : Latency) (r : Nat) {s : State} (hs : s.phase = .done) :
    Reaches t { toSend := [], readAfter := r, cycle := { unit := s, inFlight := none }, got := none }
      { toSend := [], readAfter := 0, cycle := { unit := s, inFlight := none }, got := some s.h } := by
  have hclock : clock t quiet { unit := s, inFlight := none } = .next { unit := s, inFlight := none } := rfl
  have hvalid : resValid s = true := (resValid_iff s).mpr hs
  induction r with
  | zero =>
    refine .step ?_ (.refl t _)
    simp [hostClock, hostPins, hostNext, hclock, hostSeesResult, hvalid, resData_of_done hs]
  | succ r ih =>
    refine .step ?_ ih
    simp [hostClock, hostPins, hostNext, hclock, hostSeesResult, hvalid]

theorem runWords_either_drive {seed : Word} {data : List Byte} {ws : List CmdWord}
    (h : ws = drive seed data ∨ ws = driveShort seed data) (s : State) :
    runWords ws s = .next (afterDrive seed data s) := by
  rcases h with rfl | rfl
  · exact runWords_drive seed data s
  · exact runWords_driveShort seed data s

theorem afterDrive_h (seed : Word) (data : List Byte) (s : State) : (afterDrive seed data s).h = hashFn seed data := by
  have hresult := result_afterDrive seed data s
  rw [result, if_pos (afterDrive_phase seed data s)] at hresult
  exact Option.some.inj hresult

/-! ### The statements -/

/-- Settles O51: the simulation from a unit between two commands, whose run over the transactions is the core's. -/
theorem cyclesRefineTransactions : Obligations.CyclesRefineTransactions := by
  intro lat ps s
  obtain ⟨c, t, hclock, hruns, hc⟩ := clockRun_refines lat ps (commitsTo_idle_iff.mpr (rfl : s = s))
  exact ⟨c, t, hclock, (run_samples _ s).trans hruns, hc⟩

/-- Settles O49: after the acceptance each cycle takes one busy cycle off; when none is left, the step's state is there. -/
theorem commandsCompleteWhole : Obligations.CommandsCompleteWhole := by
  intro lat p ps c hacc hps hlen
  rw [clockRun_of_accepts lat hacc hps hlen]
  rcases Nat.lt_or_eq_of_le hlen with hlt | heq
  · obtain ⟨n, hn⟩ := Nat.exists_eq_add_of_lt hlt
    rw [show busyCycles lat p.cmdWord - ps.length = n + 1 by omega, advance_succ]
    exact ⟨_, rfl, fun _ => ⟨rfl, fun q => cycleReady_of_busy q _ _⟩, fun heq => absurd heq hlt.ne⟩
  · obtain ⟨u, hu⟩ := accept_total p.cmdWord c.unit
    rw [heq, Nat.sub_self, advance_zero hu]
    exact ⟨_, rfl, fun hlt => absurd hlt (Nat.lt_irrefl _), fun _ => ⟨hu, fun q => cycleReady_of_idle q u⟩⟩

/-- Settles O52: after its busy cycles the unit is ready; so every pause and every word passes, the last command completes with
the state after `drive`, whose `H` is the hash, and the host reads it. -/
theorem driverObtainsTheHash : Obligations.DriverObtainsTheHash := by
  refine ⟨fun lat p c hacc => ?_, fun lat c seed data words r hwords => ?_⟩
  · have hlen : (List.replicate (busyCycles lat p.cmdWord) quiet).length = busyCycles lat p.cmdWord := List.length_replicate
    have hquiet : ∀ q ∈ List.replicate (busyCycles lat p.cmdWord) quiet, q.rst = false := fun q hq =>
      List.eq_of_mem_replicate hq ▸ rfl
    obtain ⟨c', hrun, -, hdone⟩ := commandsCompleteWhole lat p _ c hacc hquiet hlen.le
    exact ⟨_, c', hrun, (hdone hlen).2 quiet⟩
  · obtain ⟨s, hc⟩ := exists_commitsTo c
    have hdone := afterDrive_phase seed data s
    obtain ⟨c₁, hc₁, hdelivered⟩ := reaches_all_delivered lat words r hc (runWords_either_drive hwords s)
    obtain ⟨n, hn⟩ := (hdelivered.trans (reaches_completed lat r hc₁ hdone)).trans (reaches_read lat r hdone)
    rw [afterDrive_h] at hn
    exact ⟨n, _, hn⟩

/-- Settles O48: the three conditions of an acceptance are its definition; a unit that is not ready and not in reset has a
command in flight, whose edge does not look at the pins. -/
theorem acceptanceNeedsReady : Obligations.AcceptanceNeedsReady := by
  intro lat p c
  refine ⟨?_, fun p' hr hr' hready => ?_, fun hr hready hv => ?_⟩
  · simp only [cycleAccepts, cycleReady, cmdReady, Bool.and_eq_true, Bool.not_eq_true']
    tauto
  · obtain ⟨u, _ | f⟩ := c
    · simp [cycleReady_of_idle, hr] at hready
    · rw [Laws.clock_of_busy hr, Laws.clock_of_busy hr']
  · obtain ⟨u, _ | f⟩ := c
    · exact clock_of_nothing hr hv rfl
    · simp [cycleReady_of_busy] at hready

/-- Settles O50: the clock tests `rst` first. -/
theorem resetAbandonsTheCommand : Obligations.ResetAbandonsTheCommand := by
  intro lat p c hr
  refine ⟨by simp [cycleReady, cmdReady, hr], cycleAccepts_of_rst hr c, ?_⟩
  rw [clock_of_rst hr, resetUnit_eq]

end Sys2Proof.Proofs

/-! ## Proofs of the family other, commands and words: what an accepted word writes, the decoder's merges, the message, units -/

namespace Sys2Proof.Proofs

open Sys2Proof.Machine

/-! ### What a command writes (10 R36, 45 R150) -/

theorem not_drops_of_legal {i : Instr} (hi : ∀ seed, i ≠ .init seed) {p : Phase} (hl : legal p (.command i) = true) :
    drops p = false := by
  cases i with
  | init seed => exact absurd rfl (hi seed)
  | block b0 b1 b2 b3 => rw [of_decide_eq_true hl]; rfl
  | tail bs => rw [of_decide_eq_true hl]; rfl
  | final => rcases of_decide_eq_true hl with rfl | rfl <;> rfl

/-- A command in sequence has its effect. -/
theorem eq_effectOf_of_legal {i : Instr} {s t : State} (hi : ∀ seed, i ≠ .init seed) (h : exec i s = .next t)
    (hl : legal s.phase (.command i) = true) : t = effectOf i s :=
  Host.Outcome.next.inj (h.symm.trans (exec_of_legal hi (not_drops_of_legal hi hl) hl))

/-- A command out of sequence is dropped or faults. -/
theorem eq_self_or_raiseFault_of_illegal {i : Instr} {s t : State} (hi : ∀ seed, i ≠ .init seed)
    (h : exec i s = .next t) (hl : legal s.phase (.command i) = false) :
    t = if drops s.phase then s else raiseFault .outOfSequence s := by
  cases hd : drops s.phase with
  | true => exact Host.Outcome.next.inj (h.symm.trans (exec_of_drops hi hd))
  | false => exact Host.Outcome.next.inj (h.symm.trans (exec_of_illegal hi hd hl))

/-- The phase an effect leaves is the command's own. -/
theorem effectOf_phase_congr (i : Instr) (s s' : State) : (effectOf i s).phase = (effectOf i s').phase := by
  cases i with
  | init seed => rw [effectOf, startOperation_phase, startOperation_phase]
  | block b0 b1 b2 b3 => rw [effectOf, absorbBlock_phase, absorbBlock_phase]
  | tail bs => rw [effectOf, absorbTail_phase, absorbTail_phase]
  | final => rw [effectOf, finalize_phase, finalize_phase]

/-- What an effect writes to `H` and `LEN` depends on `H` and `LEN` only. -/
theorem effectOf_h_len_congr (i : Instr) {s s' : State} (hh : s.h = s'.h) (hlen : s.len = s'.len) :
    (effectOf i s).h = (effectOf i s').h ∧ (effectOf i s).len = (effectOf i s').len := by
  cases i with
  | init seed => simp [effectOf]
  | block b0 b1 b2 b3 => simp [effectOf, hh, hlen]
  | tail bs => simp [effectOf, hh, hlen]
  | final => simp [effectOf, hh, hlen]

theorem exec_final_len {s t : State} (h : exec .final s = .next t) : t.len = s.len := by
  rcases exec_cases h with ⟨seed, hi, -⟩ | ⟨-, -, rfl⟩ | ⟨-, -, -, rfl⟩ | ⟨-, -, -, rfl⟩
  · cases hi
  · rfl
  · exact finalize_len s
  · exact raiseFault_len _ s

/-- A block in sequence stays in `ABSORB`. -/
theorem effectOf_phase_of_block {i : Instr} {s : State} (hi : ∀ seed, i ≠ .init seed) (htail : ∀ bs, i ≠ .tail bs)
    (hfinal : i ≠ .final) (hl : legal s.phase (.command i) = true) : (effectOf i s).phase = s.phase := by
  cases i with
  | init seed => exact absurd rfl (hi seed)
  | block b0 b1 b2 b3 => exact (absorbBlock_phase _ s).trans (of_decide_eq_true hl).symm
  | tail bs => exact absurd rfl (htail bs)
  | final => exact absurd rfl hfinal

/-- Settles O18: `INIT` and reset write every register; a command in sequence has its effect, whose fields name what it reads and
writes; out of sequence `PHASE` alone decides between nothing and the fault. -/
theorem accessTable : Obligations.AccessTable := by
  refine ⟨fun seed s s' hpins => ?_, fun s s' hpins => ?_, fun i s t h => ?_,
    fun i s t hi h => ⟨fun hs => ?_, fun hl => ?_, fun hl htail hfinal => ?_, ?_, fun hl => ?_⟩,
    fun i s s' t t' hi h h' hphase hs => ?_⟩
  · rw [exec_init, exec_init, startOperation_eq, startOperation_eq, hpins]
  · rw [resetUnit_eq, resetUnit_eq, hpins]
  · rcases exec_cases h with ⟨seed, -, rfl⟩ | ⟨-, -, rfl⟩ | ⟨-, -, -, rfl⟩ | ⟨-, -, -, rfl⟩
    · exact startOperation_pins seed s
    · rfl
    · exact effectOf_pins i s
    · exact raiseFault_pins _ s
  · exact Host.Outcome.next.inj (h.symm.trans (exec_of_drops hi (drops_of_fault hs)))
  · rw [eq_effectOf_of_legal hi h hl, errcode_effectOf hi]
  · rw [eq_effectOf_of_legal hi h hl, effectOf_phase_of_block hi htail hfinal hl]
  · rintro rfl
    exact exec_final_len h
  · rw [eq_self_or_raiseFault_of_illegal hi h hl]
    split
    · exact ⟨rfl, rfl⟩
    · exact ⟨raiseFault_h _ s, raiseFault_len _ s⟩
  · cases hl : legal s.phase (.command i) with
    | true =>
      rw [eq_effectOf_of_legal hi h hl, eq_effectOf_of_legal hi h' (hphase ▸ hl)]
      exact ⟨effectOf_phase_congr i s s', effectOf_h_len_congr i, nofun⟩
    | false =>
      rw [eq_self_or_raiseFault_of_illegal hi h hl, eq_self_or_raiseFault_of_illegal hi h' (hphase ▸ hl), ← hphase]
      cases hd : drops s.phase with
      | true =>
        exact ⟨hphase, fun hh hlen => ⟨hh, hlen⟩, fun hnamed _ => absurd (drops_of_phaseNamed hnamed hs) (by simp [hd])⟩
      | false => simp +contextual

theorem effectOf_phase_ne_fault (i : Instr) (s : State) : (effectOf i s).phase ≠ .fault := by
  cases i with
  | init seed => simp [effectOf]
  | block b0 b1 b2 b3 => simp [effectOf]
  | tail bs => simp [effectOf]
  | final => simp [effectOf]

/-- Settles O25: of all that an accepted word can do, only a fault entry goes from another phase to `FAULT`. -/
theorem faultsArePrecise : Obligations.FaultsArePrecise := by
  intro w s t h hs ht
  rcases accept_cases h with
    ⟨seed, -, rfl⟩ | ⟨-, -, rfl⟩ | ⟨i, -, -, hd, hl, rfl⟩ | ⟨i, -, -, -, -, rfl⟩ | ⟨k, -, -, rfl⟩
  · simp at ht
  · exact absurd ht hs
  · exact absurd ht (effectOf_phase_ne_fault i s)
  · exact ⟨by rw [raiseFault_errcode, raiseFault_eq], .inr (raiseFault_errcode _ s)⟩
  · exact ⟨by rw [raiseFault_errcode, raiseFault_eq], .inl (raiseFault_errcode _ s)⟩

/-! ### The transition table (45 R150) -/

theorem tableEntry_init (p : Phase) : tableEntry p .init = some (.absorb, none) := by
  cases p <;> rfl

theorem column_ne_init {d : Decoded} (hd : ∀ seed, d ≠ .command (.init seed)) : column d ≠ .init := by
  cases d with
  | command i =>
    cases i with
    | init seed => exact absurd rfl (hd seed)
    | block b0 b1 b2 b3 => exact nofun
    | tail bs => exact nofun
    | final => exact nofun
  | reserved k => exact nofun

theorem tableEntry_of_drops {p : Phase} (hp : drops p = true) {c : Column} (hc : c ≠ .init) : tableEntry p c = none := by
  revert hp hc
  cases p <;> cases c <;> decide

theorem tableEntry_of_legal {i : Instr} (hi : ∀ seed, i ≠ .init seed) {s : State}
    (hl : legal s.phase (.command i) = true) :
    tableEntry s.phase (column (.command i)) = some ((effectOf i s).phase, none) := by
  cases i with
  | init seed => exact absurd rfl (hi seed)
  | block b0 b1 b2 b3 => rw [of_decide_eq_true hl, effectOf, absorbBlock_phase]; rfl
  | tail bs => rw [of_decide_eq_true hl, effectOf, absorbTail_phase]; rfl
  | final => rcases of_decide_eq_true hl with hp | hp <;> rw [hp, effectOf, finalize_phase] <;> rfl

theorem tableEntry_of_illegal {i : Instr} {p : Phase} (hd : drops p = false) (hl : legal p (.command i) = false) :
    tableEntry p (column (.command i)) = some (.fault, some .outOfSequence) := by
  rcases (illegal_iff hd i).mp hl with ⟨⟨_, _, _, _, rfl⟩, hp⟩ | ⟨⟨_, rfl⟩, hp⟩ | ⟨rfl, hp⟩
  · rcases hp with rfl | rfl | rfl <;> rfl
  · rcases hp with rfl | rfl | rfl <;> rfl
  · rcases hp with rfl | rfl <;> rfl

theorem tableEntry_of_reserved {p : Phase} (hd : drops p = false) (k : ReservedKind) :
    tableEntry p (column (.reserved k)) = some (.fault, some .reservedEncoding) := by
  rcases (drops_eq_false_iff p).mp hd with rfl | rfl | rfl | rfl <;> rfl

/-- Settles O19: each thing an accepted word can do is the entry of its row and column. -/
theorem phaseMovesByTheTable : Obligations.PhaseMovesByTheTable := by
  intro w s t h
  rcases accept_cases h with
    ⟨seed, hw, rfl⟩ | ⟨hw, hd, rfl⟩ | ⟨i, hw, hi, hd, hl, rfl⟩ | ⟨i, hw, hi, hd, hl, rfl⟩ | ⟨k, hw, hd, rfl⟩
  · rw [hw]
    simp [column, tableEntry_init]
  · simp [tableEntry_of_drops hd (column_ne_init hw)]
  · have hcolumn : column (decode w) ≠ .init := column_ne_init (by simpa [hw] using hi)
    simp [hcolumn, hw ▸ tableEntry_of_legal hi hl, errcode_effectOf hi]
  · simp [hw, tableEntry_of_illegal hd hl, raiseFault_eq]
  · simp [hw, tableEntry_of_reserved hd k, raiseFault_eq]

/-! ### The step that accepts a word -/

theorem pins_of_acceptedWord {s : State} {w : CmdWord} (h : acceptedWord s = some w) :
    ∃ ps, s.pins = present w :: ps := by
  cases hps : s.pins with
  | nil => simp [acceptedWord, hps] at h
  | cons p ps =>
    obtain ⟨r, v, w'⟩ := p
    simp only [acceptedWord, hps, Option.ite_none_right_eq_some, Option.some.injEq] at h
    obtain ⟨⟨rfl, rfl⟩, rfl⟩ := h
    exact ⟨ps, rfl⟩

theorem step_of_presented {s : State} {w : CmdWord} {ps : List Pins} (h : s.pins = present w :: ps) :
    step s = accept w (s.setPins ps) := by
  rw [step_of_cons h, samplePins_present]

/-- An `INIT` leaves nothing of the registers, so the step that accepts one depends on the pins only (10 R33). -/
theorem step_of_presented_init {s : State} {w : CmdWord} {seed : Word} {ps : List Pins} (h : s.pins = present w :: ps)
    (hw : decode w = .command (.init seed)) :
    step s = .next { h := seed, len := 0, phase := .absorb, errcode := .none, pins := ps } := by
  rw [step_of_presented h, accept_of_command hw, exec_init, startOperation_eq, State.setPins_pins]

/-- Settles O21: a sample that presents a word without reset is its acceptance, which looks at what the word decodes to. -/
theorem stepRunsTheDecodedCommand : Obligations.StepRunsTheDecodedCommand := by
  intro s w ps hps
  have hstep : step s = accept w (s.setPins ps) := step_of_presented hps
  exact ⟨fun i hw => ⟨decode_wf hw, hstep.trans (accept_of_command hw _)⟩,
    fun k hw => hstep.trans (accept_of_reserved hw _)⟩

theorem decodeTableWord_eq_some {nbits w : Nat} {i : Instr} (h : decodeTableWord nbits w = some i) :
    ∃ cw, tableWord nbits w = some cw ∧ decode cw = .command i := by
  rw [decodeTableWord] at h
  split at h
  · cases h
  · next cw hcw =>
    split at h
    · next j hj => exact ⟨cw, hcw, hj.trans (congrArg _ (Option.some.inj h))⟩
    · cases h

/-- Settles O22: the table word is a command word, presented in the oldest sample; taking that sample gives the state back. -/
theorem fetchedWordRunsNext : Obligations.FetchedWordRunsNext := by
  intro s nbits w i h
  obtain ⟨cw, hcw, hdec⟩ := decodeTableWord_eq_some h
  have hpins : (s.withFetchWord nbits w).pins = present cw :: s.pins := by
    rw [State.withFetchWord, State.setPins_pins, presentTableWord, hcw]
  rw [step_of_presented hpins, accept_of_command hdec, State.withFetchWord, setPins_setPins, setPins_self]

/-- Settles O39: the first step leaves the two units in one state. -/
theorem nothingSurvivesInit : Obligations.NothingSurvivesInit := by
  intro s s' w seed n hacc hw hpins
  obtain ⟨ps, hps⟩ := pins_of_acceptedWord hacc
  have hstep := step_of_presented_init hps hw
  have hstep' := step_of_presented_init (hpins ▸ hps) hw
  exact (run_succ_of_next hstep n).trans (run_succ_of_next hstep' n).symm

/-- An effect that leaves `DONE` is that of `FINAL`. -/
theorem eq_final_of_effectOf_done {i : Instr} {s : State} (h : (effectOf i s).phase = .done) : i = .final := by
  cases i with
  | init seed => simp [effectOf] at h
  | block b0 b1 b2 b3 => simp [effectOf] at h
  | tail bs => simp [effectOf] at h
  | final => rfl

/-- Settles O30: a reset leaves `IDLE` and a wait the phase it finds; of what an accepted word can do only the effect of a
`FINAL` in sequence enters `DONE`. -/
theorem onlyFinalFinishes : Obligations.OnlyFinalFinishes := by
  intro s t h hs ht
  rcases step_cases h with ⟨-, rfl⟩ | ⟨-, w, hw, ha⟩ | ⟨-, -, rfl⟩
  · simp at ht
  · rcases accept_cases ha with
      ⟨seed, -, rfl⟩ | ⟨-, -, rfl⟩ | ⟨i, hdec, -, -, hl, rfl⟩ | ⟨i, -, -, -, -, rfl⟩ | ⟨k, -, -, rfl⟩
    · exact absurd ht (startOperation_phase_ne_done seed _)
    · exact absurd ht hs
    · obtain rfl := eq_final_of_effectOf_done ht
      exact ⟨⟨w, hw, hdec⟩, of_decide_eq_true hl, finalize_eq _⟩
    · exact absurd ht (raiseFault_phase_ne_done _ _)
    · exact absurd ht (raiseFault_phase_ne_done _ _)
  · exact absurd ht hs

/-! ### Words that decode alike (30 R74) -/

/-- Lane `j / 8` holds bit `j` of the word. -/
theorem getLsbD_eq_lane (w : CmdWord) {j : Nat} (hj : j < 32) :
    w.getLsbD j = ((lanes w).getD (j / 8) 0).getLsbD (j % 8) := by
  rw [← getLsbD_le _ _ hj, le_lanes, dataField, BitVec.getLsbD_extractLsb']
  simp [hj]

/-- The first `n` lanes are the bits below `8 * n`. -/
theorem take_lanes_eq_iff (w w' : CmdWord) {n : Nat} (hn : n ≤ 4) :
    (lanes w).take n = (lanes w').take n ↔ ∀ j < 8 * n, w.getLsbD j = w'.getLsbD j := by
  constructor
  · intro h j hj
    have hlane : (lanes w)[j / 8]? = (lanes w')[j / 8]? := by
      rw [← List.getElem?_take_of_lt (by omega : j / 8 < n), h, List.getElem?_take_of_lt (by omega)]
    rw [getLsbD_eq_lane w (by omega), getLsbD_eq_lane w' (by omega), List.getD_eq_getElem?_getD, hlane,
      List.getD_eq_getElem?_getD]
  · intro h
    refine List.ext_getElem? fun k => ?_
    by_cases hk : k < n
    · rw [List.getElem?_take_of_lt hk, List.getElem?_take_of_lt hk, lanes_getElem? w (by omega), lanes_getElem? w' (by omega)]
      refine congrArg some (BitVec.eq_of_getLsbD_eq fun i hi => ?_)
      rw [BitVec.getLsbD_extractLsb', BitVec.getLsbD_extractLsb', h _ (by omega)]
    · rw [List.getElem?_take_eq_none (by omega), List.getElem?_take_eq_none (by omega)]

theorem cntField_toNat_le (w : CmdWord) : (cntField w).toNat ≤ 4 := Nat.le_of_lt (cntField w).isLt

/-- A `TAIL` command determines the count and the lanes it counts. -/
theorem decode_tail_inj {w w' : CmdWord} {bs : List Byte} (h : decode w = .command (.tail bs))
    (h' : decode w' = .command (.tail bs)) :
    opField w = 2#2 ∧ opField w' = 2#2 ∧ cntField w = cntField w' ∧
      ∀ j < 8 * (cntField w).toNat, w.getLsbD j = w'.getLsbD j := by
  obtain ⟨hop, hbs⟩ := (decode_eq_tail_iff w bs).mp h
  obtain ⟨hop', hbs'⟩ := (decode_eq_tail_iff w' bs).mp h'
  have hcnt : cntField w = cntField w' := by
    have hlen := congrArg List.length (hbs.symm.trans hbs')
    rw [length_take_lanes, length_take_lanes] at hlen
    exact BitVec.eq_of_toNat_eq hlen
  rw [take_lanes] at hbs hbs'
  exact ⟨hop, hop', hcnt, (take_lanes_eq_iff w w' (cntField_toNat_le w)).mp (hbs.symm.trans (hcnt ▸ hbs'))⟩

/-- Settles O5: a command that is no `TAIL` is encoded by one word alone; a `TAIL` determines its count and the lanes below it, and
is determined by them. -/
theorem onlyIgnoredLanesMerge : Obligations.OnlyIgnoredLanesMerge := by
  refine ⟨fun w w' i h h' => ?_, fun w w' hop hop' hcnt hbits => ?_⟩
  · by_cases hi : ∃ bs, i = .tail bs
    · obtain ⟨bs, rfl⟩ := hi
      exact .inr (decode_tail_inj h h')
    · have hop : ∀ {v : CmdWord}, decode v = .command i → opField v ≠ 2#2 := fun hv ho =>
        hi ⟨_, (Decoded.command.inj ((decode_of_op_two ho).symm.trans hv)).symm⟩
      rw [← clearIgnoredLanes_of_op_ne (hop h), ← clearIgnoredLanes_of_op_ne (hop h'), ← encode_of_decode h,
        ← encode_of_decode h']
      exact .inl rfl
  · rw [decode_of_op_two hop, decode_of_op_two hop', take_lanes, take_lanes, ← hcnt,
      (take_lanes_eq_iff w w' (cntField_toNat_le w)).mpr hbits]

/-! ### The host's reads (20 R57) -/

/-- A read within the message gives that stretch of it. -/
theorem memRead_eq (data : List Byte) {a n : Nat} (h : a + n ≤ data.length) :
    memRead data a n = some ((data.drop a).take n) := by
  rw [memRead, if_pos h]
  refine congrArg some (List.ext_getElem (by simp; omega) fun j hj _ => ?_)
  have hj' : j < n := by simpa using hj
  simp [byteAt, List.getElem?_eq_getElem (by omega : a + j < data.length)]

theorem hostReads_within {len : Nat} {r : Nat × Nat} (hr : r ∈ hostReads len) : r.1 + r.2 ≤ len := by
  rcases List.mem_append.mp hr with hblock | htail
  · obtain ⟨i, hi, rfl⟩ := List.mem_map.mp hblock
    have hi := List.mem_range.mp hi
    dsimp only
    omega
  · split at htail
    · cases htail
    · rw [List.mem_singleton.mp htail]
      exact (Nat.div_add_mod len 4).le

/-- The stretches the host reads, one after another. -/
theorem reduceOption_memRead (data : List Byte) (rs : List (Nat × Nat)) (hrs : ∀ r ∈ rs, r.1 + r.2 ≤ data.length) :
    (rs.map fun r => memRead data r.1 r.2).reduceOption = rs.map fun r => (data.drop r.1).take r.2 := by
  induction rs with
  | nil => rfl
  | cons r rs ih =>
    obtain ⟨hr, hrs⟩ := List.forall_mem_cons.mp hrs
    rw [List.map_cons, memRead_eq data hr, List.reduceOption_cons_of_some, ih hrs, List.map_cons]

/-- The first `n` blocks, one after another, are the first `4 * n` bytes. -/
theorem flatten_blocks (data : List Byte) (n : Nat) :
    ((List.range n).map fun i => (data.drop (4 * i)).take 4).flatten = data.take (4 * n) := by
  induction n with
  | zero => rfl
  | succ n ih =>
    rw [List.range_succ, List.map_append, List.flatten_append, ih, List.map_singleton, List.flatten_singleton,
      Nat.mul_succ, List.take_add]

theorem flatten_hostReads (data : List Byte) :
    ((hostReads data.length).map fun r => (data.drop r.1).take r.2).flatten = data := by
  have htail : ((if data.length % 4 = 0 then [] else [(4 * (data.length / 4), data.length % 4)]).map
      fun r : Nat × Nat => (data.drop r.1).take r.2).flatten = data.drop (4 * (data.length / 4)) := by
    split
    · rw [List.drop_eq_nil_of_le (by omega)]
      rfl
    · rw [List.map_singleton, List.flatten_singleton, List.take_of_length_le (by rw [List.length_drop]; omega)]
  rw [hostReads, List.map_append, List.flatten_append, List.map_map, htail]
  exact (congrArg (· ++ _) (flatten_blocks data _)).trans (List.take_append_drop _ data)

theorem length_blockCommands (data : List Byte) : (blockCommands data).length = nblocks data := by
  rw [blockCommands, List.length_map, List.length_range]

theorem driveCommands_block (seed : Word) (data : List Byte) {i : Nat} (hi : i < nblocks data) :
    (driveCommands seed data)[i + 1]? = some (blockCommand data i) := by
  have hget : (blockCommands data)[i]? = some (blockCommand data i) := by
    rw [blockCommands, List.getElem?_map, List.getElem?_range hi, Option.map_some]
  rw [driveCommands, List.singleton_append, List.cons_append, List.getElem?_cons_succ,
    List.getElem?_append_left (by rwa [length_blockCommands]), hget]

theorem driveCommands_tail (seed : Word) (data : List Byte) :
    (driveCommands seed data)[nblocks data + 1]? = some (.tail (messageTail data)) := by
  rw [driveCommands, List.singleton_append, List.cons_append, List.getElem?_cons_succ,
    List.getElem?_append_right (length_blockCommands data).le, length_blockCommands, Nat.sub_self]
  rfl

/-- Settles O40: each read is a stretch of the message, and the stretches follow one another; `blockCommand` and `messageTail`
carry what the reads give. -/
theorem hostReadsTheMessageOnce : Obligations.HostReadsTheMessageOnce := by
  intro data
  have hwithin : ∀ r ∈ hostReads data.length, r.1 + r.2 ≤ data.length := fun _ => hostReads_within
  refine ⟨?_, fun r hr => ⟨hwithin r hr, ?_⟩, fun i hi => ?_, ?_⟩
  · rw [reduceOption_memRead data _ hwithin, flatten_hostReads]
  · rw [memRead_eq data (hwithin r hr)]
    rfl
  · exact ⟨_, _, _, _, if_pos (by omega), driveCommands_block 0 data hi⟩
  · exact ⟨_, if_pos (Nat.div_add_mod data.length 4).le, driveCommands_tail 0 data⟩

/-! ### Units (60 R184) -/

theorem platformStep_eq {us : List State} {k : Nat} {u u' : State} (hu : us[k]? = some u) (h : step u = .next u') :
    platformStep k us = .next (us.set k u') := by
  rw [platformStep, hu]
  exact congrArg (andThen · _) h

theorem platformStep_none {us : List State} {k : Nat} (hu : us[k]? = none) : platformStep k us = .next us := by
  rw [platformStep, hu]

/-- Settles O53: in every order a unit's own steps are steps of it alone, and another unit's leave it as it is. -/
theorem unitsAreIndependent : Obligations.UnitsAreIndependent := by
  intro order
  induction order with
  | nil => exact fun us => ⟨us, rfl, rfl, fun k u hu => ⟨u, hu, rfl⟩⟩
  | cons j order ih =>
    intro us
    cases hj : us[j]? with
    | none =>
      obtain ⟨us', hrun, hlen, halone⟩ := ih us
      refine ⟨us', by rw [platformRun, platformStep_none hj, andThen_next, hrun], hlen, fun k u hu => ?_⟩
      have hjk : j ≠ k := fun e => by simp [e, hu] at hj
      rw [List.count_cons_of_ne hjk]
      exact halone k u hu
    | some v =>
      obtain ⟨v', hv'⟩ := step_total v
      obtain ⟨us', hrun, hlen, halone⟩ := ih (us.set j v')
      refine ⟨us', by rw [platformRun, platformStep_eq hj hv', andThen_next, hrun], by rw [hlen, List.length_set],
        fun k u hu => ?_⟩
      by_cases hjk : j = k
      · subst hjk
        obtain rfl : v = u := Option.some.inj (hj.symm.trans hu)
        obtain ⟨u', hu', hrunk⟩ := halone j v' (List.getElem?_set_self (List.getElem?_eq_some_iff.mp hu).1)
        rw [List.count_cons_self]
        exact ⟨u', hu', (run_succ_of_next hv' _).trans hrunk⟩
      · rw [List.count_cons_of_ne hjk]
        exact halone k u ((List.getElem?_set_ne hjk).trans hu)

/-! ### Fixed words and the primitives -/

/-- Settles O1: eleven fixed words, decoded one by one. -/
theorem sampleWordsDecode : Obligations.SampleWordsDecode := by
  refine ⟨?_, ?_, ?_, ?_, ?_, ?_, ?_, ?_, ?_, ?_, ?_⟩ <;> decide

/-- Settles O9: the primitives are the bit vectors' own operations. -/
theorem primitivesAsNumbers : Obligations.PrimitivesAsNumbers := by
  refine fun a b => ⟨BitVec.toNat_mul a b, BitVec.toNat_add a b, fun i _ => ?_, fun s _ => ?_⟩
  · exact BitVec.getLsbD_xor
  · rw [shr32, BitVec.toNat_ushiftRight, Nat.shiftRight_eq_div_pow]

end Sys2Proof.Proofs

/-! ## Proofs of the family other, the text of a word: numerals, tokens, and lines read back -/

namespace Sys2Proof.Proofs

open Sys2Proof.Machine

/-! ### Numerals (30 R77) -/

theorem length_hexDigits (k n : Nat) : (hexDigits k n).length = k := by
  induction k generalizing n with
  | zero => rfl
  | succ k ih => rw [hexDigits, List.length_append, ih, List.length_singleton]

theorem digitValue_hexDigit {m : Nat} (hm : m < 16) : digitValue 16 (hexDigit m) = some m := by
  revert m
  decide

theorem digitsValue_append (base : Nat) (cs ds : List Char) (acc : Nat) :
    digitsValue base (cs ++ ds) acc = (digitsValue base cs acc).bind (digitsValue base ds) := by
  induction cs generalizing acc with
  | nil => rfl
  | cons c cs ih =>
    rw [List.cons_append, digitsValue, digitsValue, Option.bind_assoc]
    exact congrArg _ (funext fun d => ih _)

/-- The last digit of `n` in base 16 is `n % 16`; those before it are the digits of `n / 16`. -/
theorem digitsValue_hexDigits (k n acc : Nat) :
    digitsValue 16 (hexDigits k n) acc = some (acc * 16 ^ k + n % 16 ^ k) := by
  induction k generalizing n with
  | zero => simp [hexDigits, digitsValue, Nat.mod_one]
  | succ k ih =>
    rw [hexDigits, digitsValue_append, ih, Option.bind_some, digitsValue, digitValue_hexDigit (Nat.mod_lt n (by decide)),
      Option.bind_some, digitsValue, Nat.pow_succ', Nat.mod_mul]
    refine congrArg some ?_
    ring

theorem numeralValue_hexNumeral {k : Nat} (hk : 0 < k) (n : Nat) :
    numeralValue (hexNumeral k n) = some (n % 16 ^ k) := by
  have hlen : (hexNumeral k n).length ≠ 2 := by
    rw [hexNumeral, List.length_append, length_hexDigits]
    exact Nat.ne_of_gt (Nat.lt_add_of_pos_right hk)
  have htake : (hexNumeral k n).take 2 = ['0', 'x'] := rfl
  have hvalue := digitsValue_hexDigits k n 0
  rw [Nat.zero_mul, Nat.zero_add] at hvalue
  rw [numeralValue, if_pos htake, if_neg hlen]
  exact hvalue

/-- A value of `4 * k` bits is read back from its `k` hexadecimal digits. -/
theorem readNumeral_hexNumeral {m k : Nat} (hm : m = 4 * k) (hk : 0 < k) (x : BitVec m) :
    readNumeral m (hexNumeral k x.toNat) = some x := by
  have hpow : 16 ^ k = 2 ^ m := by rw [hm, Nat.pow_mul]
  rw [readNumeral, numeralValue_hexNumeral hk, hpow, Nat.mod_eq_of_lt x.isLt, Option.bind_some, if_pos x.isLt,
    BitVec.ofNat_toNat, BitVec.setWidth_eq]

/-- The numeral of a byte. -/
def byteNumeral (b : Byte) : List Char := hexNumeral 2 b.toNat

theorem readNumeral_byteNumeral (b : Byte) : readNumeral 8 (byteNumeral b) = some b :=
  readNumeral_hexNumeral (k := 2) rfl (by decide) b

theorem readBytes_byteNumerals (bs : List Byte) : readBytes ((bs.map byteNumeral).map .word) = some bs := by
  induction bs with
  | nil => rfl
  | cons b bs ih =>
    rw [List.map_cons, List.map_cons, readBytes, readNumeral_byteNumeral, Option.bind_some, ih]
    rfl

/-! ### Tokens -/

/-- A character that neither ends a word nor begins a comment or a text. -/
def Plain (c : Char) : Prop := c ≠ quoteChar ∧ c ≠ ';' ∧ c ≠ ' ' ∧ c ≠ '\t' ∧ c ≠ ','

/-- The characters of one token. -/
def PlainWord (cs : List Char) : Prop := cs ≠ [] ∧ ∀ c ∈ cs, Plain c

theorem plain_hexDigit {m : Nat} (hm : m < 16) : Plain (hexDigit m) := by
  unfold Plain
  revert m
  decide

theorem plain_of_mem_hexDigits {k n : Nat} {c : Char} (hc : c ∈ hexDigits k n) : Plain c := by
  induction k generalizing n with
  | zero => cases hc
  | succ k ih =>
    rcases List.mem_append.mp hc with hc | hc
    · exact ih hc
    · exact List.mem_singleton.mp hc ▸ plain_hexDigit (Nat.mod_lt n (by decide))

theorem plainWord_hexNumeral (k n : Nat) : PlainWord (hexNumeral k n) := by
  refine ⟨nofun, fun c hc => ?_⟩
  rcases List.mem_append.mp hc with hc | hc
  · rcases List.mem_pair.mp hc with rfl | rfl
    · unfold Plain; decide
    · unfold Plain; decide
  · exact plain_of_mem_hexDigits hc

theorem tokens_plain_cons {c : Char} (hc : Plain c) (cs cur : List Char) :
    tokens (c :: cs) cur false = tokens cs (c :: cur) false := by
  obtain ⟨hquote, hsemi, hblank, htab, hcomma⟩ := hc
  simp [tokens, hquote, hsemi, hblank, htab, hcomma]

theorem tokens_plain_append {w : List Char} (hw : ∀ c ∈ w, Plain c) (cs cur : List Char) :
    tokens (w ++ cs) cur false = tokens cs (w.reverse ++ cur) false := by
  induction w generalizing cur with
  | nil => rfl
  | cons c w ih =>
    obtain ⟨hc, hw⟩ := List.forall_mem_cons.mp hw
    rw [List.cons_append, tokens_plain_cons hc, ih hw, List.reverse_cons, List.append_assoc, List.singleton_append]

theorem pendingWord_reverse {w : List Char} (hw : w ≠ []) : pendingWord w.reverse = [.word w] := by
  rw [pendingWord, if_neg (by simpa using hw), List.reverse_reverse]

theorem tokens_blank_cons (cs cur : List Char) :
    tokens (' ' :: cs) cur false = (tokens cs [] false).map (pendingWord cur ++ ·) := by
  rw [tokens]
  rfl

/-- Words, each after a blank, are their own tokens. -/
theorem tokens_words {w : List Char} (hw : PlainWord w) {ws : List (List Char)} (hws : ∀ v ∈ ws, PlainWord v) :
    tokens (w ++ ws.flatMap (' ' :: ·)) [] false = some ((w :: ws).map .word) := by
  induction ws generalizing w with
  | nil => rw [tokens_plain_append hw.2, List.append_nil, List.flatMap_nil, tokens, pendingWord_reverse hw.1]; rfl
  | cons v ws ih =>
    obtain ⟨hv, hws⟩ := List.forall_mem_cons.mp hws
    rw [tokens_plain_append hw.2, List.append_nil, List.flatMap_cons, List.cons_append, tokens_blank_cons, ih hv hws,
      pendingWord_reverse hw.1]
    rfl

/-! ### Lines -/

/-- The first word of a line's text. -/
def keyword : AsmLine → List Char
  | .init _ => kwInit
  | .block _ _ _ _ => kwBlock
  | .tail _ => kwTail
  | .final => kwFinal
  | .cw _ => kwCw

/-- The numerals of a line's text. -/
def numerals : AsmLine → List (List Char)
  | .init seed => [hexNumeral 8 seed.toNat]
  | .block b0 b1 b2 b3 => [b0, b1, b2, b3].map byteNumeral
  | .tail bs => bs.map byteNumeral
  | .final => []
  | .cw w => [hexNumeral 9 w.toNat]

theorem plainWord_keyword (l : AsmLine) : PlainWord (keyword l) := by
  cases l with
  | init seed => simp [PlainWord, Plain, keyword, kwInit, quoteChar]
  | block b0 b1 b2 b3 => simp [PlainWord, Plain, keyword, kwBlock, quoteChar]
  | tail bs => simp [PlainWord, Plain, keyword, kwTail, quoteChar]
  | final => simp [PlainWord, Plain, keyword, kwFinal, quoteChar]
  | cw w => simp [PlainWord, Plain, keyword, kwCw, quoteChar]

theorem plainWord_byteNumerals (bs : List Byte) : ∀ v ∈ bs.map byteNumeral, PlainWord v := by
  intro v hv
  obtain ⟨b, -, rfl⟩ := List.mem_map.mp hv
  exact plainWord_hexNumeral 2 b.toNat

theorem plainWord_numerals (l : AsmLine) : ∀ v ∈ numerals l, PlainWord v := by
  cases l with
  | init seed => exact List.forall_mem_singleton.mpr (plainWord_hexNumeral 8 _)
  | block b0 b1 b2 b3 => exact plainWord_byteNumerals [b0, b1, b2, b3]
  | tail bs => exact plainWord_byteNumerals bs
  | final => exact nofun
  | cw w => exact List.forall_mem_singleton.mpr (plainWord_hexNumeral 9 _)

theorem renderBytes_eq (bs : List Byte) : renderBytes bs = (bs.map byteNumeral).flatMap (' ' :: ·) := by
  rw [renderBytes, List.flatMap_map]
  rfl

theorem renderLine_eq (l : AsmLine) : renderLine l = keyword l ++ (numerals l).flatMap (' ' :: ·) := by
  cases l with
  | init seed => rw [renderLine, keyword, numerals, List.flatMap_singleton]
  | block b0 b1 b2 b3 => rw [renderLine, renderBytes_eq, keyword, numerals]
  | tail bs => rw [renderLine, renderBytes_eq, keyword, numerals]
  | final => rfl
  | cw w => rw [renderLine, keyword, numerals, List.flatMap_singleton]

/-- A line that is a statement: a `TAIL` has at most three bytes (30 R77). -/
def Readable (l : AsmLine) : Prop := ∀ bs, l = .tail bs → bs.length ≤ 3

theorem readOperands_init (cs : List Char) :
    readOperands kwInit [.word cs] = (readNumeral 32 cs).map fun seed => .line (.init seed) := rfl

theorem readOperands_block {ts : List Token} {b0 b1 b2 b3 : Byte} (h : readBytes ts = some [b0, b1, b2, b3]) :
    readOperands kwBlock ts = some (.line (.block b0 b1 b2 b3)) := by
  unfold readOperands
  rw [if_neg (by decide), if_pos rfl, h]

theorem readOperands_tail {ts : List Token} {bs : List Byte} (h : readBytes ts = some bs) (hbs : bs.length ≤ 3) :
    readOperands kwTail ts = some (.line (.tail bs)) := by
  unfold readOperands
  rw [if_neg (by decide), if_neg (by decide), if_pos rfl, h]
  exact if_pos hbs

theorem readOperands_cw (cs : List Char) :
    readOperands kwCw [.word cs] = (readNumeral 36 cs).map fun w => .line (.cw w) := rfl

theorem readOperands_line {l : AsmLine} (hl : Readable l) :
    readOperands (keyword l) ((numerals l).map .word) = some (.line l) := by
  cases l with
  | init seed =>
    have hseed : readNumeral 32 (hexNumeral 8 seed.toNat) = some seed :=
      readNumeral_hexNumeral (k := 8) rfl (by decide) seed
    exact (readOperands_init _).trans (congrArg (Option.map _) hseed)
  | block b0 b1 b2 b3 => exact readOperands_block (readBytes_byteNumerals [b0, b1, b2, b3])
  | tail bs => exact readOperands_tail (readBytes_byteNumerals bs) (hl bs rfl)
  | final => rfl
  | cw w =>
    have hw : readNumeral 36 (hexNumeral 9 w.toNat) = some w :=
      readNumeral_hexNumeral (k := 9) rfl (by decide) w
    exact (readOperands_cw _).trans (congrArg (Option.map _) hw)

/-- A line's text is read as the line. -/
theorem assembleText_renderLine {l : AsmLine} (hl : Readable l) : assembleText (renderLine l) = some [assembleLine l] := by
  rw [assembleText, renderLine_eq, tokens_words (plainWord_keyword l) (plainWord_numerals l)]
  exact congrArg (Option.map assembleStatement) (readOperands_line hl)

/-! ### Disassembled words -/

theorem assembleLine_mnemonicForm (i : Instr) : assembleLine (mnemonicForm i) = encode i := by
  cases i with
  | init seed => rfl
  | block b0 b1 b2 b3 => rfl
  | tail bs => rfl
  | final => rfl

theorem readable_mnemonicForm {i : Instr} (hi : i.wf = true) : Readable (mnemonicForm i) := by
  intro bs h
  cases i with
  | init seed => cases h
  | block b0 b1 b2 b3 => cases h
  | tail bs' => cases h; exact of_decide_eq_true hi
  | final => cases h

/-- A disassembled word is printed as the command that encodes to it, or as the word itself. -/
theorem disassemble_cases (w : CmdWord) :
    (∃ i, i.wf = true ∧ encode i = w ∧ disassemble w = mnemonicForm i) ∨ disassemble w = .cw w := by
  cases hw : decode w with
  | command i =>
    by_cases hi : encode i = w
    · exact .inl ⟨i, decode_wf hw, hi, by simp [disassemble, hw, hi]⟩
    · exact .inr (by simp [disassemble, hw, hi])
  | reserved k => exact .inr (by simp [disassemble, hw])

theorem assembleLine_disassemble (w : CmdWord) : assembleLine (disassemble w) = w := by
  rcases disassemble_cases w with ⟨i, -, hi, h⟩ | h
  · rw [h, assembleLine_mnemonicForm, hi]
  · rw [h, assembleLine]

theorem readable_disassemble (w : CmdWord) : Readable (disassemble w) := by
  rcases disassemble_cases w with ⟨i, hi, -, h⟩ | h
  · exact h ▸ readable_mnemonicForm hi
  · exact h ▸ nofun

/-- Settles O54: a disassembled line assembles to its word, and its text is a keyword and numerals, whose tokens are read as that
line. -/
theorem disassemblyReadsBack : Obligations.DisassemblyReadsBack := by
  refine ⟨assembleLine_disassemble, fun i hi => ?_, fun w => ?_⟩
  · simp [disassemble, decode_encode i hi]
  · rw [assembleText_renderLine (readable_disassemble w), assembleLine_disassemble]

end Sys2Proof.Proofs
